-- ==== Sys2Proof/Word.lean ====
section
/-!
DEFINITION. The words the machine moves (00_scope.md rules R5, R11, R12): command words, coefficients, exponents,
slot indices. Bit 0 is the least significant bit of each (R11).
-/

namespace Sys2Proof

/-- A command word, `cmd[31:0]` (R5 `CMDW`, R70). -/
abbrev CmdWord := BitVec 32

/-- A coefficient field, a value of the `wdata` or `rdata` port: 256 bits (R5 `CW`, `DW`; R21). -/
abbrev Coeff := BitVec 256

/-- An exponent field: 32 bits, two's complement (R5 `EW`, R22). -/
abbrev Expo := BitVec 32

/-- The index of a value slot V0..V7 (R5 `NSLOT`, R20); every value names a slot (R55). -/
abbrev SlotIx := Fin 8

end Sys2Proof
end

