-- ==== Sys2Proof/Syntax.lean ====
section
/-!
DEFINITION. The sixteen commands of the opcode map (30_encoding.md rule R76), one constructor per row, with the operands
in the order of rule R82.
-/

namespace Sys2Proof

/-- A decoded command. `vd`, `vq`, `vr` are destination slots, `va`, `vb`, `vs` source slots (R71, R82). -/
inductive Instr where
  /-- `LI Vd, imm` (R170). -/
  | li (vd : SlotIx) (imm : BitVec 14)
  /-- `LXI Vd, ±, e` (R171): `neg` is the sign bit `s`, `true` for `-`. -/
  | lxi (vd : SlotIx) (neg : Bool) (simm : BitVec 14)
  /-- `LDC Vd` (R172). -/
  | ldc (vd : SlotIx)
  /-- `LDX Vd` (R173). -/
  | ldx (vd : SlotIx)
  /-- `STC Vs` (R174). -/
  | stc (vs : SlotIx)
  /-- `STX Vs` (R175). -/
  | stx (vs : SlotIx)
  /-- `MOV Vd, Vs` (R176). -/
  | mov (vd vs : SlotIx)
  /-- `RDF` (R177). -/
  | rdf
  /-- `ADD Vd, Va, Vb` (R110). -/
  | add (vd va vb : SlotIx)
  /-- `SUB Vd, Va, Vb` (R112). -/
  | sub (vd va vb : SlotIx)
  /-- `MUL Vd, Va, Vb` (R116). -/
  | mul (vd va vb : SlotIx)
  /-- `DIVMOD Vq, Vr, Va, Vb` (R120). -/
  | divmod (vq vr va vb : SlotIx)
  /-- `CMP Va, Vb` (R114). -/
  | cmp (va vb : SlotIx)
  /-- `SCALE Vd, Va, n` (R124). -/
  | scale (vd va : SlotIx) (n : BitVec 7)
  /-- `DIGITS Vd, Va` (R128). -/
  | digits (vd va : SlotIx)
  /-- `ROUND Vd, Va` (R142). -/
  | round (vd va : SlotIx)
  deriving DecidableEq, Repr

end Sys2Proof
end

