-- ==== Sys2Proof/WellFormed.lean ====
section
/-!
DEFINITION. Which commands a word can encode. Slot indices and immediates are bounded by their types (every value is
legal, 30_encoding.md rule R78), so the one check is that `DIVMOD` has two different destinations (rules R78 (c), R121).
-/

namespace Sys2Proof

/-- The command is the reading of some legal word (R78, R121). -/
def Instr.wellFormed : Instr → Bool
  | .divmod vq vr _ _ => vq != vr
  | .li _ _ => true
  | .lxi _ _ _ => true
  | .ldc _ => true
  | .ldx _ => true
  | .stc _ => true
  | .stx _ => true
  | .mov _ _ => true
  | .rdf => true
  | .add _ _ _ => true
  | .sub _ _ _ => true
  | .mul _ _ _ => true
  | .cmp _ _ => true
  | .scale _ _ _ => true
  | .digits _ _ => true
  | .round _ _ => true

end Sys2Proof
end

