-- ==== Sys2Proof/Decode.lean ====
section
/-!
DEFINITION. The decoder of command words (30_encoding.md rules R70 to R80), total on all 2^32 words and rejecting by
name, and after it the encoder, written from the format tables R72, R73, R74.
-/

namespace Sys2Proof

/-- Why a word is illegal: the three cases of R78. Each raises `IllegalCommand` (R200). -/
inductive DecodeError where
  /-- R78 (a): `op` is none of the sixteen listed values. -/
  | unassignedOpcode (op : BitVec 6)
  /-- R78 (b): a must-be-zero bit of the row is 1. -/
  | nonzeroReservedField (op : BitVec 6)
  /-- R78 (c): `DIVMOD` with `vd = vd2`. -/
  | sameDestination (vd : SlotIx)
  deriving DecidableEq, Repr

/-- `op = w[31:26]` (R71). -/
def opcodeOf (w : CmdWord) : BitVec 6 := w.extractLsb' 26 6

/-- The three-bit slot field whose lowest bit is `lo` (R71, R75: a plain unsigned index). -/
def slotField (w : CmdWord) (lo : Nat) : SlotIx := (w.extractLsb' lo 3).toFin

/-- `vd`, bits 25:23 (R71). -/
def vdOf (w : CmdWord) : SlotIx := slotField w 23

/-- `vs1`, bits 22:20 (R71). -/
def vs1Of (w : CmdWord) : SlotIx := slotField w 20

/-- `vs2`, bits 19:17 (R71). -/
def vs2Of (w : CmdWord) : SlotIx := slotField w 17

/-- `vd2`, bits 16:14 (R71). -/
def vd2Of (w : CmdWord) : SlotIx := slotField w 14

/-- `imm14` and `simm14`, bits 13:0 (R73, R74). -/
def imm14Of (w : CmdWord) : BitVec 14 := w.extractLsb' 0 14

/-- The row test of R76 and R80: accept `i` if `(w AND mask) = match`, else name the must-be-zero violation. -/
def matchRow (w mask pat : CmdWord) (i : Instr) : Except DecodeError Instr :=
  if w &&& mask = pat then .ok i else .error (.nonzeroReservedField (opcodeOf w))

/-- R78 (c), R121: the two destinations of `DIVMOD` must differ. -/
def requireDistinct (vq vr : SlotIx) (i : Instr) : Except DecodeError Instr :=
  if vq = vr then .error (.sameDestination vq) else .ok i

/-- The decoding procedure of R80 over the opcode map of R76. -/
def decode (w : CmdWord) : Except DecodeError Instr :=
  match (opcodeOf w).toNat with
  | 0x01 => matchRow w 0xFC7FC000 0x04000000 (.li (vdOf w) (imm14Of w))
  | 0x02 => matchRow w 0xFC7F8000 0x08000000 (.lxi (vdOf w) (w.getLsbD 14) (imm14Of w))
  | 0x03 => matchRow w 0xFC7FFFFF 0x0C000000 (.ldc (vdOf w))
  | 0x04 => matchRow w 0xFC7FFFFF 0x10000000 (.ldx (vdOf w))
  | 0x05 => matchRow w 0xFF8FFFFF 0x14000000 (.stc (vs1Of w))
  | 0x06 => matchRow w 0xFF8FFFFF 0x18000000 (.stx (vs1Of w))
  | 0x07 => matchRow w 0xFC0FFFFF 0x1C000000 (.mov (vdOf w) (vs1Of w))
  | 0x08 => matchRow w 0xFFFFFFFF 0x20000000 .rdf
  | 0x10 => matchRow w 0xFC01FFFF 0x40000000 (.add (vdOf w) (vs1Of w) (vs2Of w))
  | 0x11 => matchRow w 0xFC01FFFF 0x44000000 (.sub (vdOf w) (vs1Of w) (vs2Of w))
  | 0x12 => matchRow w 0xFC01FFFF 0x48000000 (.mul (vdOf w) (vs1Of w) (vs2Of w))
  | 0x13 => do
    let i ← matchRow w 0xFC003FFF 0x4C000000 (.divmod (vdOf w) (vd2Of w) (vs1Of w) (vs2Of w))
    requireDistinct (vdOf w) (vd2Of w) i
  | 0x14 => matchRow w 0xFF81FFFF 0x50000000 (.cmp (vs1Of w) (vs2Of w))
  | 0x15 => matchRow w 0xFC0FFF80 0x54000000 (.scale (vdOf w) (vs1Of w) (w.extractLsb' 0 7))
  | 0x16 => matchRow w 0xFC0FFFFF 0x58000000 (.digits (vdOf w) (vs1Of w))
  | 0x18 => matchRow w 0xFC0FFFFF 0x60000000 (.round (vdOf w) (vs1Of w))
  | _ => .error (.unassignedOpcode (opcodeOf w))

/-- The reading of an instruction whose bits are `w`, of which the table gives `nbits`; the bits above are 0. A command
arrives whole on `cmd[31:0]` (R70), so there is no byte order to lay out. -/
def decodeTableWord (nbits w : Nat) : Option Instr :=
  (decode (BitVec.ofNat 32 (w % 2 ^ nbits))).toOption

/-- The three bits of a slot index. -/
def slotBits (i : SlotIx) : BitVec 3 := BitVec.ofFin i

/-- Format R (R72): `op`, `vd`, `vs1`, `vs2`, `vd2`, fourteen zeros. -/
def formatR (op : BitVec 6) (vd vs1 vs2 vd2 : SlotIx) : CmdWord :=
  op ++ slotBits vd ++ slotBits vs1 ++ slotBits vs2 ++ slotBits vd2 ++ 0#14

/-- Format I (R73): `op`, `vd`, `vs1`, six zeros, `imm14`. -/
def formatI (op : BitVec 6) (vd vs1 : SlotIx) (imm : BitVec 14) : CmdWord :=
  op ++ slotBits vd ++ slotBits vs1 ++ 0#6 ++ imm

/-- Format X (R74): `op`, `vd`, eight zeros, `s`, `simm14`. -/
def formatX (op : BitVec 6) (vd : SlotIx) (s : Bool) (simm : BitVec 14) : CmdWord :=
  op ++ slotBits vd ++ 0#8 ++ BitVec.ofBool s ++ simm

/-- The word of a well-formed command (R72 to R76); an unused field is 0 (R71). -/
def encode : Instr → CmdWord
  | .li vd imm => formatI 0x01 vd 0 imm
  | .lxi vd neg simm => formatX 0x02 vd neg simm
  | .ldc vd => formatR 0x03 vd 0 0 0
  | .ldx vd => formatR 0x04 vd 0 0 0
  | .stc vs => formatR 0x05 0 vs 0 0
  | .stx vs => formatR 0x06 0 vs 0 0
  | .mov vd vs => formatR 0x07 vd vs 0 0
  | .rdf => formatR 0x08 0 0 0 0
  | .add vd va vb => formatR 0x10 vd va vb 0
  | .sub vd va vb => formatR 0x11 vd va vb 0
  | .mul vd va vb => formatR 0x12 vd va vb 0
  | .divmod vq vr va vb => formatR 0x13 vq va vb vr
  | .cmp va vb => formatR 0x14 0 va vb 0
  | .scale vd va n => formatI 0x15 vd va (0#7 ++ n)
  | .digits vd va => formatR 0x16 vd va 0 0
  | .round vd va => formatR 0x18 vd va 0 0

end Sys2Proof
end

