-- ==== Sys2Proof/Config.lean ====
section
/-!
DEFINITION. What the source fixes (00_scope.md rule R4), what the spec decides (R5), and the one parameter it leaves
open (`LAT_MAX`, decision D28).
-/

namespace Sys2Proof.Config

/-- `P`: digits of a finished coefficient (R4). -/
abbrev precision : Nat := 34

/-- `CMAX` = 10^34 − 1, the largest finished coefficient (R4). -/
abbrev cmax : Nat := 10 ^ 34 - 1

/-- `EMIN` (R4). -/
abbrev emin : Int := -6176

/-- `EMAX` (R4). -/
abbrev emax : Int := 6111

/-- `CW`: width of a coefficient field (R5). -/
abbrev coeffWidth : Nat := 256

/-- `NMAX`: the largest n with 10^n < 2^256 (R5). -/
abbrev nmax : Nat := 77

/-- `DMAX`: the number of decimal digits of 2^256 − 1 (R5). -/
abbrev dmax : Nat := 78

/-- One less than `LAT_MAX`. DESIGN CHOICE of form only, log entry 6: the spec leaves `LAT_MAX` OPEN (R5, D28), finite and at
least 1, so it is an uninterpreted constant here and nothing can evaluate it. Safe. -/
opaque latMaxPred : Nat

/-- `LAT_MAX`: the most clock cycles from the accepting edge of a command to its completion (R5, R53, R236). -/
def latMax : Nat := latMaxPred + 1

end Sys2Proof.Config
end

