-- ==== Sys2Proof/Machine/State.lean ====
section
/-!
DEFINITION. The state of the WCU (10_state.md rules R20 to R31), the ports a step reads and drives (20_memory.md rule
R51), the host's pending actions as plain data (00_scope.md rule R9), the reasons a step can stop, and the state after
reset.
-/

namespace Sys2Proof.Machine

open Sys2Proof

/-- The special tag of a slot, field `T` (R24): every one of the four codes is legal in the field. -/
inductive Tag where
  | finite
  | infinity
  | quietNaN
  | signalingNaN
  deriving DecidableEq, Repr

/-- One value slot (R20): coefficient `C` (R21), exponent `E` (R22), sign `S`, true = negative (R23), tag `T` (R24). -/
structure Slot where
  c : Coeff
  e : Expo
  s : Bool
  t : Tag
  deriving DecidableEq, Repr

/-- The flag register `FLAGS` (R27): six flags of one bit each. -/
structure Flags where
  cy : Bool
  eq : Bool
  lt : Bool
  of : Bool
  uf : Bool
  tn : Bool
  deriving DecidableEq, Repr

/-- The four causes of a fault (R200, R202): exactly four constructors (93_implementation_defined.md U6). -/
inductive Cause where
  | illegalCommand
  | divideByZero
  | operandOrder
  | capacityOverflow
  deriving DecidableEq, Repr

/-- The fault status register `FSR` (R29): `F`, `CAUSE` (`none` is code 0; codes 5 to 15 never occur), `FCMD`. -/
structure Fsr where
  f : Bool
  cause : Option Cause
  fcmd : CmdWord
  deriving DecidableEq, Repr

/-- What the unit is doing between two clock edges (R51, R52, R230): in reset, ready for a command (when not faulted), or
holding one command in flight with so many edges still to wait before the one it completes at (R53). -/
inductive Phase where
  | inReset
  | idle
  | inFlight (wait : Nat)
  deriving DecidableEq, Repr

/-- What the host presents for one command: the word on `cmd` and the value on `wdata` (R51, R52). -/
structure Command where
  word : CmdWord
  wdata : Coeff
  deriving DecidableEq, Repr

/-- The whole machine: the unit's architectural state (`slots`, `flags`, `fsr`; R30), its port side (`phase`, `rsp`, `cmd`,
`wdata`), and what the host is about to do (`commands`, `pc`, `rst`). -/
structure State where
  /-- V0 to V7 (R20). -/
  slots : Vector Slot 8
  /-- `FLAGS` (R27, R29). -/
  flags : Flags
  /-- `FSR` (R29). -/
  fsr : Fsr
  /-- In reset, idle, or a command in flight (R51 to R53, R230). -/
  phase : Phase
  /-- `rsp_valid` and `rdata`: `some v` when a completion has just driven `rdata = v` (R53), `none` when `rsp_valid = 0`;
  `rdata` is then any value and is not shown (U3). DEDUCED, log entry 9. -/
  rsp : Option Coeff
  /-- `cmd` as sampled at the last accepting edge (R52). -/
  cmd : CmdWord
  /-- `wdata` as sampled at the last accepting edge (R52). -/
  wdata : Coeff
  /-- The host's list of commands (R9). DESIGN CHOICE, log entry 3. -/
  commands : List Command
  /-- The index of the next command of the list to present (R9); no state of the unit (R26). -/
  pc : Nat
  /-- The `rst` pin as the host drives it at the next step: `some v` is high, and `v` is what the slot fields hold from
  then on, drawn by nobody (U1: "any value drawn once per field at reset and passed in as an argument"). Log entry 2. -/
  rst : Option (Vector Slot 8)
  deriving DecidableEq, Repr

/-- Why a step stops. -/
inductive Fault where
  /-- Raised by `step` in the faulted state (`FSR.F = 1`, no reset asserted): no command is accepted, the state is frozen,
  and every step answers the same fault again (R205, U7). Safe: the spec lets nothing happen here. -/
  | stopped (cause : Option Cause) (fcmd : CmdWord)
  deriving DecidableEq, Repr

/-- Why an instruction has no meaning. -/
inductive Refusal where
  /-- Raised by an arm of `exec` whose instruction is not modelled; no arm raises it. Safe. -/
  | notModelled (mnemonic : String)
  deriving DecidableEq, Repr

/-- `FLAGS` after reset: all six 0 (R31). -/
def Flags.clear : Flags := ⟨false, false, false, false, false, false⟩

/-- `FSR` after reset: not faulted, `CAUSE` 0, `FCMD` 0 (R31). -/
def Fsr.clear : Fsr := ⟨false, none, 0⟩

/-- The unit right after reset with the slot fields holding `contents`: `FLAGS` and `FSR` clear, no command in flight, ready
(R31, R230). The slot fields are UNSPECIFIED there, so `contents` is an argument (U1). The host has nothing presented (log entry 3). The sampled ports hold 0:
DESIGN CHOICE, log entry 4. -/
def State.resetWith (contents : Vector Slot 8) : State where
  slots := contents
  flags := Flags.clear
  fsr := Fsr.clear
  phase := .idle
  rsp := none
  cmd := 0
  wdata := 0
  commands := []
  pc := 0
  rst := none

/-- DESIGN CHOICE, log entry 1, unsafe: the fields of a slot no command has written. The spec leaves them UNSPECIFIED (R31)
and forbids zero (U1); this value is nonzero in every field. -/
def unwrittenSlot : Slot where
  c := 0x5A5A5A5A5A5A5A5A
  e := 0x5A5A5A5A
  s := true
  t := .signalingNaN

/-- The machine right after reset (R31), the slots at the value log entry 1 names. Statements are made of
`State.resetWith` for every contents. -/
def State.reset : State := State.resetWith (Vector.replicate 8 unwrittenSlot)

end Sys2Proof.Machine
end

