-- ==== Sys2Proof/Machine/Ops.lean ====
section
/-!
DEFINITION. The named operations of the machine: reading and writing slot fields (00_scope.md rule R13), the two ways a
command ends (R8; 60_exceptions.md rule R203), acceptance, reset and idling (20_memory.md rules R52, R53; 70_reset_and_hazards.md rule
R230), and the exact decimal arithmetic the commands share (40_wide_arith.md rules R103, R104; 41_rounder.md rule R141).
-/

namespace Sys2Proof.Machine

open Sys2Proof

/-- The answer of a step, a meaning or a shared operation. -/
abbrev Answer := Host.Outcome State Fault Refusal

/-! ### Slot fields -/

/-- The whole slot `Vi`. -/
def State.slot (s : State) (i : SlotIx) : Slot := s.slots[i]

/-- `C[i]` as an unsigned integer (R13). -/
def State.coeff (s : State) (i : SlotIx) : Nat := (s.slot i).c.toNat

/-- `E[i]` as the signed integer `sext_32` of its 32 bits (R13, R22). -/
def State.expo (s : State) (i : SlotIx) : Int := (s.slot i).e.toInt

/-- Write the whole slot `Vi`; no slot is hardwired (R20). -/
def State.setSlot (s : State) (i : SlotIx) (v : Slot) : State :=
  { s with slots := s.slots.set i v }

/-- `C[i] <- v`: all 256 bits (R32). -/
def State.setC (s : State) (i : SlotIx) (v : Coeff) : State :=
  s.setSlot i { s.slot i with c := v }

/-- `E[i] <- e; S[i] <- neg; T[i] <- t`: the auxiliary fields are always written together (R32). -/
def State.setAux (s : State) (i : SlotIx) (e : Expo) (neg : Bool) (t : Tag) : State :=
  s.setSlot i { c := (s.slot i).c, e := e, s := neg, t := t }

/-- Write `FLAGS`. -/
def State.setFlags (s : State) (f : Flags) : State := { s with flags := f }

/-! ### How a command ends -/

/-- Outcome `Next` (R8, R53): the state the command's writes made, `rsp_valid` with `rdata`, no command in flight, and the
host's list index moved on by one (R9). DESIGN CHOICE, log entry 7: the unit is ready again in that cycle. -/
def respond (rdata : Coeff) (s : State) : Answer :=
  .next { s with rsp := some rdata, phase := .idle, pc := s.pc + 1 }

/-- Fault entry, `raise <cause>` (R201, R203): `FSR` records the cause and the command word, nothing else of the machine
changes, `rsp_valid` is not pulsed, and the host's list index stays (R9). DEDUCED, log entry 8: the state after the entry is a next
state. -/
def raise (cause : Cause) (s : State) : Answer :=
  .next { s with fsr := ⟨true, some cause, s.cmd⟩, rsp := none, phase := .idle }

/-- Write an exact result to `C[vd]` and the flags beside it, or raise `CapacityOverflow` and write nothing (R102). -/
def writeExact (vd : SlotIx) (v : Nat) (f : Flags) (s : State) : Answer :=
  if 2 ^ 256 ≤ v then raise .capacityOverflow s
  else respond 0 ((s.setC vd (BitVec.ofNat 256 v)).setFlags f)

/-! ### Acceptance, reset, idling -/

/-- `cmd_ready` (R51): not in reset, no command in flight, not faulted. -/
def State.cmdReady (s : State) : Bool := s.phase = .idle && !s.fsr.f

/-- The command the host presents next, if its list has one (R9). -/
def State.presented (s : State) : Option Command := s.commands[s.pc]?

/-- The accepting edge (R52): `cmd` and `wdata` are sampled, and the command is in flight for `wait` edges more. -/
def accept (c : Command) (wait : Nat) (s : State) : State :=
  { s with cmd := c.word, wdata := c.wdata, phase := .inFlight wait, rsp := none }

/-- An edge at which nothing is accepted and nothing completes: the state holds (R215, R235), `rsp_valid = 0`. DEDUCED, log
entry 11. -/
def hold (s : State) : State := { s with rsp := none }

/-- `rst` sampled high (R230 to R232, R207): whatever is in flight is abandoned, and the unit is in reset, where the state is
already that of R31 with the slot fields at `contents` (log entry 5). The host's list and index are not the unit's. -/
def enterReset (contents : Vector Slot 8) (s : State) : State :=
  { State.resetWith contents with phase := .inReset, commands := s.commands, pc := s.pc }

/-- `rst` sampled low in the reset state (R230): the unit leaves it, ready for a command. -/
def leaveReset (s : State) : State := { s with phase := .idle, rsp := none }

/-! ### Exact decimal arithmetic -/

/-- Counts decimal digits, as long as the count is at most `fuel + 1`. -/
def digitCountFuel : Nat → Nat → Nat
  | 0, _ => 1
  | fuel + 1, v => if v < 10 then 1 else digitCountFuel fuel (v / 10) + 1

/-- `digit_count(v)` (R103): 1 at 0. A number has at most one decimal digit more than its binary logarithm. -/
def digitCount (v : Nat) : Nat := digitCountFuel v.log2 v

/-- `rhe(v, r)` (R141): remove the `r` low decimal digits of `v` by round-half-even. -/
def rhe (v r : Nat) : Nat :=
  if r = 0 then v
  else
    let q := v / 10 ^ r
    let rem := v % 10 ^ r
    let half := 5 * 10 ^ (r - 1)
    if rem > half then q + 1
    else if rem = half ∧ q % 2 = 1 then q + 1
    else q

end Sys2Proof.Machine
end

