-- ==== Sys2Proof/Machine/Flags.lean ====
section
/-!
DEFINITION. The flag register (10_state.md rules R27, R28): its bits as `RDF` returns them, and the three commands' updates. A
flag an update does not name keeps its value.
-/

namespace Sys2Proof.Machine

open Sys2Proof

/-- `FLAGS` as `RDF` returns it (R27, R177): bit 0 `CY`, 1 `EQ`, 2 `LT`, 3 `OF`, 4 `UF`, 5 `TN`. -/
def flagBits (f : Flags) : BitVec 6 :=
  BitVec.ofBool f.tn ++ BitVec.ofBool f.uf ++ BitVec.ofBool f.of ++ BitVec.ofBool f.lt ++ BitVec.ofBool f.eq
    ++ BitVec.ofBool f.cy

/-- `ADD` writes `CY` alone: 1 iff the exact sum has more than 34 digits (R27, R110). -/
def flagsAfterAdd (f : Flags) (sum : Nat) : Flags := { f with cy := decide (10 ^ 34 ≤ sum) }

/-- `CMP` writes `EQ` and `LT` alone (R27, R114). -/
def flagsAfterCmp (f : Flags) (a b : Nat) : Flags := { f with eq := decide (a = b), lt := decide (a < b) }

/-- `ROUND` writes `OF`, `UF` and `TN`, all three (R27, R142). -/
def flagsAfterRound (f : Flags) (of uf tn : Bool) : Flags := { f with of := of, uf := uf, tn := tn }

end Sys2Proof.Machine
end

