-- ==== Sys2Proof/Machine/Operands.lean ====
section
/-!
DEFINITION. Every operand form: immediates (30_encoding.md rule R75), the auxiliary word `X` (10_state.md rule R25), the tag and
cause codes (R24; 60_exceptions.md rule R202), `FSR` as its 37 bits (R29), and the 64-bit words of a 256-bit value (R11, R54).
-/

namespace Sys2Proof.Machine

open Sys2Proof

/-- `zext_256(imm14)` (R75, R170). -/
def zextImm (imm : BitVec 14) : Coeff := imm.setWidth 256

/-- `sext_14(simm14)` in the 32-bit exponent field (R75, R171). -/
def sextImm (simm : BitVec 14) : Expo := simm.signExtend 32

/-- The code of a tag (R24). -/
def tagCode : Tag → BitVec 2
  | .finite => 0
  | .infinity => 1
  | .quietNaN => 2
  | .signalingNaN => 3

/-- The tag of a code (R24): every code has one. -/
def tagOfCode (b : BitVec 2) : Tag :=
  match b.toNat with
  | 0 => .finite
  | 1 => .infinity
  | 2 => .quietNaN
  | _ => .signalingNaN

/-- `X = {T, S, E}`, 35 bits (R25). -/
def auxWord (v : Slot) : BitVec 35 := tagCode v.t ++ BitVec.ofBool v.s ++ v.e

/-- `E` of an auxiliary word on a 256-bit port: bits 31:0 (R25, R173). -/
def auxExpo (w : Coeff) : Expo := w.extractLsb' 0 32

/-- `S` of an auxiliary word on a 256-bit port: bit 32 (R25, R173). -/
def auxSign (w : Coeff) : Bool := w.getLsbD 32

/-- `T` of an auxiliary word on a 256-bit port: bits 34:33 (R25, R173); bits 255:35 are read by nothing (U9). -/
def auxTag (w : Coeff) : Tag := tagOfCode (w.extractLsb' 33 2)

/-- The code of a cause (R200, R202). -/
def causeCode : Cause → BitVec 4
  | .illegalCommand => 1
  | .divideByZero => 2
  | .operandOrder => 3
  | .capacityOverflow => 4

/-- `FSR.CAUSE` and the `cause[3:0]` pins (R202): 0 is no fault. -/
def causeBits : Option Cause → BitVec 4
  | none => 0
  | some c => causeCode c

/-- `FSR` as its 37 bits (R29): bit 0 `F`, bits 4:1 `CAUSE`, bits 36:5 `FCMD`. -/
def fsrBits (f : Fsr) : BitVec 37 := f.fcmd ++ causeBits f.cause ++ BitVec.ofBool f.f

/-- 64-bit word `w` of a 256-bit value: bits [64w+63:64w] (R11, R54). -/
def word64 (v : Coeff) (w : Fin 4) : BitVec 64 := v.extractLsb' (64 * w) 64

/-- A 256-bit value from its four words, word 0 the least significant (R54). -/
def ofWords (w0 w1 w2 w3 : BitVec 64) : Coeff := w3 ++ w2 ++ w1 ++ w0

end Sys2Proof.Machine
end

