-- ==== Sys2Proof/Machine/Rounder.lean ====
section
/-!
DEFINITION. The normalizer and rounder, command `ROUND` (41_rounder.md rules R141 to R148): precision stage, overflow test,
deficit stage, in that order, on exact integers.
-/

namespace Sys2Proof.Machine

open Sys2Proof

/-- What `ROUND` writes: the whole destination slot and its three flags (R142). -/
structure Rounded where
  slot : Slot
  of : Bool
  uf : Bool
  tn : Bool
  deriving DecidableEq, Repr

/-- Stage 1 (R143): down to 34 digits by one removal, and one exact extra pass if that carried into 35 digits. -/
def precisionStage (c : Nat) (e : Int) : Nat × Int :=
  if digitCount c > Config.precision then
    let r := digitCount c - Config.precision
    let c' := rhe c r
    let e' := e + r
    if digitCount c' > Config.precision then (rhe c' 1, e' + 1) else (c', e')
  else (c, e)

/-- The coefficient of stage 3 (R145): `rhe(c, k)`. After stage 1 the result is 0 for `k ≥ 35`, so `10^k` need not be formed for
`k > 34` (R145); that this is `rhe(c, k)` is `deficitShift_eq_rhe` in Laws/Arith.lean. DEDUCED, log entry 13. -/
def deficitShift (c k : Nat) : Nat := if 35 ≤ k then 0 else rhe c k

/-- Stages 2 and 3 (R144, R145) on what stage 1 left. -/
def rangeStage (neg : Bool) (c : Nat) (e : Int) : Rounded :=
  if e > Config.emax then
    ⟨{ c := 0, e := 0, s := neg, t := .infinity }, true, false, false⟩
  else if e < Config.emin then
    let c' := deficitShift c (Config.emin - e).toNat
    ⟨{ c := BitVec.ofNat 256 c', e := BitVec.ofInt 32 Config.emin, s := neg, t := .finite }, false, decide (c' = 0), true⟩
  else
    ⟨{ c := BitVec.ofNat 256 c, e := BitVec.ofInt 32 e, s := neg, t := .finite }, false, false, false⟩

/-- The Rounder on a triple (sign, coefficient, exponent) (R142). The source's tag is no input (R147). -/
def roundTriple (neg : Bool) (c : Nat) (e : Int) : Rounded :=
  let p := precisionStage c e
  rangeStage neg p.1 p.2

/-- `ROUND Vd, Va` (R142): total, all four fields and all three flags. -/
def execRound (vd va : SlotIx) (s : State) : Answer :=
  let r := roundTriple (s.slot va).s (s.coeff va) (s.expo va)
  respond 0 ((s.setSlot vd r.slot).setFlags (flagsAfterRound s.flags r.of r.uf r.tn))

end Sys2Proof.Machine
end

