-- ==== Sys2Proof/Machine/Transfer.lean ====
section
/-!
DEFINITION. The transfer commands `LI`, `LXI`, `LDC`, `LDX`, `STC`, `STX`, `MOV`, `RDF` (42_transfer.md rules R170 to R177). None
writes a flag and none can fault.
-/

namespace Sys2Proof.Machine

open Sys2Proof

/-- `LI Vd, imm` (R170). -/
def execLi (vd : SlotIx) (imm : BitVec 14) (s : State) : Answer :=
  respond 0 (s.setC vd (zextImm imm))

/-- `LXI Vd, ±, e` (R171): tag Finite. -/
def execLxi (vd : SlotIx) (neg : Bool) (simm : BitVec 14) (s : State) : Answer :=
  respond 0 (s.setAux vd (sextImm simm) neg .finite)

/-- `LDC Vd` (R172): all 256 bits of the sampled `wdata`, no range check. -/
def execLdc (vd : SlotIx) (s : State) : Answer :=
  respond 0 (s.setC vd s.wdata)

/-- `LDX Vd` (R173): `E`, `S`, `T` from the sampled `wdata[34:0]`. -/
def execLdx (vd : SlotIx) (s : State) : Answer :=
  respond 0 (s.setAux vd (auxExpo s.wdata) (auxSign s.wdata) (auxTag s.wdata))

/-- `STC Vs` (R174): `rdata <- C[vs]`. -/
def execStc (vs : SlotIx) (s : State) : Answer :=
  respond (s.slot vs).c s

/-- `STX Vs` (R175): `rdata <- zext_256(X[vs])`. -/
def execStx (vs : SlotIx) (s : State) : Answer :=
  respond ((auxWord (s.slot vs)).setWidth 256) s

/-- `MOV Vd, Vs` (R176): the whole slot. -/
def execMov (vd vs : SlotIx) (s : State) : Answer :=
  respond 0 (s.setSlot vd (s.slot vs))

/-- `RDF` (R177): `rdata <- zext_256(FLAGS)`; the flags are not cleared. -/
def execRdf (s : State) : Answer :=
  respond ((flagBits s.flags).setWidth 256) s

end Sys2Proof.Machine
end

