-- ==== Sys2Proof/Machine/WideArith.lean ====
section
/-!
DEFINITION. The wide-integer commands `ADD`, `SUB`, `CMP`, `MUL`, `DIVMOD`, `SCALE`, `DIGITS` (40_wide_arith.md rules R100 to
R130): computed on exact integers, written only when they fit (R102). They touch `C` fields alone (R100).
-/

namespace Sys2Proof.Machine

open Sys2Proof

/-- `ADD Vd, Va, Vb` (R110): the exact sum; `CY` reports a sum of more than 34 digits. -/
def execAdd (vd va vb : SlotIx) (s : State) : Answer :=
  let sum := s.coeff va + s.coeff vb
  writeExact vd sum (flagsAfterAdd s.flags sum) s

/-- `SUB Vd, Va, Vb` (R112): the exact difference, or `OperandOrder`. -/
def execSub (vd va vb : SlotIx) (s : State) : Answer :=
  if s.coeff va < s.coeff vb then raise .operandOrder s
  else respond 0 (s.setC vd (BitVec.ofNat 256 (s.coeff va - s.coeff vb)))

/-- `CMP Va, Vb` (R114): unsigned compare of all 256 bits into `EQ` and `LT`. -/
def execCmp (va vb : SlotIx) (s : State) : Answer :=
  respond 0 (s.setFlags (flagsAfterCmp s.flags (s.coeff va) (s.coeff vb)))

/-- `MUL Vd, Va, Vb` (R116): the whole product. -/
def execMul (vd va vb : SlotIx) (s : State) : Answer :=
  writeExact vd (s.coeff va * s.coeff vb) s.flags s

/-- `DIVMOD Vq, Vr, Va, Vb` (R120): floor quotient and remainder, or `DivideByZero` for every dividend. The command with
one slot for both results is no legal command and raises `IllegalCommand` (R121; no word decodes to it; log entry 10). -/
def execDivmod (vq vr va vb : SlotIx) (s : State) : Answer :=
  if vq = vr then raise .illegalCommand s
  else if s.coeff vb = 0 then raise .divideByZero s
  else
    respond 0
      ((s.setC vq (BitVec.ofNat 256 (s.coeff va / s.coeff vb))).setC vr
        (BitVec.ofNat 256 (s.coeff va % s.coeff vb)))

/-- `SCALE Vd, Va, n` (R124): `a × 10^n`, `n` from 0 to 127. -/
def execScale (vd va : SlotIx) (n : BitVec 7) (s : State) : Answer :=
  writeExact vd (s.coeff va * 10 ^ n.toNat) s.flags s

/-- `DIGITS Vd, Va` (R128): the decimal digit count, zero-extended. -/
def execDigits (vd va : SlotIx) (s : State) : Answer :=
  respond 0 (s.setC vd (BitVec.ofNat 256 (digitCount (s.coeff va))))

end Sys2Proof.Machine
end

