-- ==== Sys2Proof/Machine/Dispatch.lean ====
section
/-!
DEFINITION. One arm per command of the opcode map (30_encoding.md rule R76), each one call of its meaning.
-/

namespace Sys2Proof.Machine

open Sys2Proof

def exec (i : Instr) (s : State) : Host.Outcome State Fault Refusal :=
  match i with
  | .li vd imm => Sys2Proof.Machine.execLi vd imm s
  | .lxi vd neg simm => Sys2Proof.Machine.execLxi vd neg simm s
  | .ldc vd => Sys2Proof.Machine.execLdc vd s
  | .ldx vd => Sys2Proof.Machine.execLdx vd s
  | .stc vs => Sys2Proof.Machine.execStc vs s
  | .stx vs => Sys2Proof.Machine.execStx vs s
  | .mov vd vs => Sys2Proof.Machine.execMov vd vs s
  | .rdf => Sys2Proof.Machine.execRdf s
  | .add vd va vb => Sys2Proof.Machine.execAdd vd va vb s
  | .sub vd va vb => Sys2Proof.Machine.execSub vd va vb s
  | .mul vd va vb => Sys2Proof.Machine.execMul vd va vb s
  | .divmod vq vr va vb => Sys2Proof.Machine.execDivmod vq vr va vb s
  | .cmp va vb => Sys2Proof.Machine.execCmp va vb s
  | .scale vd va n => Sys2Proof.Machine.execScale vd va n s
  | .digits vd va => Sys2Proof.Machine.execDigits vd va s
  | .round vd va => Sys2Proof.Machine.execRound vd va s

end Sys2Proof.Machine
end

