-- ==== Sys2Proof/Machine/Complete.lean ====
section
/-!
DEFINITION. The completion of the command in flight (00_scope.md rule R7; 60_exceptions.md rule R207): the sampled word is decoded
first, an illegal one raises `IllegalCommand` (30_encoding.md rule R78), and a legal one has its meaning.
-/

namespace Sys2Proof.Machine

open Sys2Proof

/-- Complete the command whose word and data the unit has sampled (R52, R207). -/
def completeCommand (s : State) : Answer :=
  match decode s.cmd with
  | .ok i => exec i s
  | .error _ => raise .illegalCommand s

end Sys2Proof.Machine
end

