-- ==== Sys2Proof/Machine/Step.lean ====
section
/-!
DEFINITION. One step of the unit (00_scope.md rules R7 to R9): the complete execution of one command, or a reset action, or an idle
step. And how the host places a command where the next step takes it.
-/

namespace Sys2Proof.Machine

open Sys2Proof

/-- One step. Reset overrides everything (R207, R230). A faulted unit accepts nothing and answers its fault again (R205, U7). A
unit in reset with `rst` low leaves it (R230). A command in flight completes (R53). An idle unit accepts the command the host
presents and completes it (R7, R52), or holds its state if there is none (R215). -/
def step (s : State) : Host.Outcome State Fault Refusal :=
  match s.rst with
  | some contents => .next (enterReset contents s)
  | none =>
    if s.fsr.f then .fault (.stopped s.fsr.cause s.fsr.fcmd)
    else
      match s.phase with
      | .inReset => .next (leaveReset s)
      | .inFlight _ => completeCommand s
      | .idle =>
        match s.presented with
        | some c => completeCommand (accept c 0 s)
        | none => .next (hold s)

/-- The state with the host about to present the word `w` (its bits above `nbits` 0) and nothing else: `rst` low, the unit ready.
Log entry 3. `wdata` is what the port already holds. -/
def State.withFetchWord (s : State) (nbits w : Nat) : State :=
  { s with
    commands := [⟨BitVec.ofNat 32 (w % 2 ^ nbits), s.wdata⟩], pc := 0, rst := none, phase := .idle, fsr := Fsr.clear }

end Sys2Proof.Machine
end

