-- ==== Sys2Proof/Machine/Assembler.lean ====
section
/-!
DEFINITION. The assembler syntax (30_encoding.md rule R81), the operand order of every command (R82) and the two pseudo-commands
(R83). No step uses this file: it is how the host writes commands down. Text is a list of characters.
Blanks, lines without a command, leading zeros, the case of hexadecimal digits, a leading `+` of an exponent and the range check are
DESIGN CHOICE, log entry 15.
-/

namespace Sys2Proof.Machine

open Sys2Proof

/-- An operand as R81 writes it. -/
inductive Operand where
  /-- `V0` .. `V7`. -/
  | slot (i : SlotIx)
  /-- `+` or `-` alone: `LXI`'s sign, `true` for `-`. -/
  | sign (neg : Bool)
  /-- A decimal numeral. -/
  | decimal (n : Nat)
  /-- A `0x` hexadecimal numeral. -/
  | hex (n : Nat)
  /-- A decimal numeral with `-` (or `+`) before it. -/
  | signed (z : Int)
  deriving DecidableEq, Repr

/-! ### From text to operands (R81) -/

/-- The value of one digit in the given base, at most 16. -/
def digitOf (base : Nat) (ch : Char) : Option Nat :=
  let n := ch.toNat
  let v :=
    if 48 ≤ n ∧ n ≤ 57 then some (n - 48)
    else if 65 ≤ n ∧ n ≤ 70 then some (n - 55)
    else if 97 ≤ n ∧ n ≤ 102 then some (n - 87)
    else none
  v.filter (· < base)

/-- Digits from the left, `acc` the value of those already read. -/
def numeralFrom (base : Nat) : Nat → List Char → Option Nat
  | acc, [] => some acc
  | acc, ch :: rest => (digitOf base ch).bind fun d => numeralFrom base (acc * base + d) rest

/-- A numeral has at least one digit. -/
def numeral (base : Nat) (cs : List Char) : Option Nat :=
  if cs.isEmpty then none else numeralFrom base 0 cs

/-- One operand (R81). -/
def readOperand (cs : List Char) : Option Operand :=
  match cs with
  | ['V', d] => (numeral 8 [d]).map fun n => .slot (Fin.ofNat 8 n)
  | ['+'] => some (.sign false)
  | ['-'] => some (.sign true)
  | '0' :: 'x' :: rest => (numeral 16 rest).map .hex
  | '-' :: rest => (numeral 10 rest).map fun n => .signed (-(n : Int))
  | '+' :: rest => (numeral 10 rest).map fun n => .signed (n : Int)
  | _ => (numeral 10 cs).map .decimal

/-- Without the blanks at either end. -/
def trimBlanks (cs : List Char) : List Char :=
  ((cs.dropWhile (· = ' ')).reverse.dropWhile (· = ' ')).reverse

/-- The pieces between commas. -/
def splitCommas : List Char → List (List Char)
  | [] => [[]]
  | ',' :: rest => [] :: splitCommas rest
  | ch :: rest =>
    match splitCommas rest with
    | [] => [[ch]]
    | piece :: more => (ch :: piece) :: more

/-! ### From operands to commands (R82, R83) -/

/-- An unsigned immediate below `2^w` (R75, R81: decimal or hexadecimal). -/
def unsignedImm (w : Nat) : Operand → Option (BitVec w)
  | .decimal n => if n < 2 ^ w then some (BitVec.ofNat w n) else none
  | .hex n => if n < 2 ^ w then some (BitVec.ofNat w n) else none
  | .slot _ => none
  | .sign _ => none
  | .signed _ => none

/-- `LXI`'s exponent: a signed decimal numeral from −8192 to +8191 (R75, R81). -/
def signedImm (o : Operand) : Option (BitVec 14) :=
  let fit := fun (z : Int) => if -8192 ≤ z ∧ z ≤ 8191 then some (BitVec.ofInt 14 z) else none
  match o with
  | .decimal n => fit n
  | .signed z => fit z
  | .slot _ => none
  | .sign _ => none
  | .hex _ => none

/-- `CLR Vd` (R83): coefficient zero. -/
def expandClr (vd : SlotIx) : List Instr := [.li vd 0]

/-- `ZERO Vd, ±` (R83): the fixed constant signed zero. -/
def expandZero (vd : SlotIx) (neg : Bool) : List Instr := [.li vd 0, .lxi vd neg 0]

/-- ONE, the source's fixed constant, as R233 builds it. -/
def expandOne (vd : SlotIx) : List Instr := [.li vd 1, .lxi vd false 0]

/-- The mnemonics of R82 and of the two pseudo-commands of R83. -/
inductive Mnemonic where
  | li | lxi | ldc | ldx | stc | stx | mov | rdf
  | add | sub | mul | divmod | cmp | scale | digits | round
  | clr | zero
  deriving DecidableEq, Repr

/-- A mnemonic in capitals (R76, R81, R83). -/
def mnemonicText : Mnemonic → List Char
  | .li => ['L', 'I']
  | .lxi => ['L', 'X', 'I']
  | .ldc => ['L', 'D', 'C']
  | .ldx => ['L', 'D', 'X']
  | .stc => ['S', 'T', 'C']
  | .stx => ['S', 'T', 'X']
  | .mov => ['M', 'O', 'V']
  | .rdf => ['R', 'D', 'F']
  | .add => ['A', 'D', 'D']
  | .sub => ['S', 'U', 'B']
  | .mul => ['M', 'U', 'L']
  | .divmod => ['D', 'I', 'V', 'M', 'O', 'D']
  | .cmp => ['C', 'M', 'P']
  | .scale => ['S', 'C', 'A', 'L', 'E']
  | .digits => ['D', 'I', 'G', 'I', 'T', 'S']
  | .round => ['R', 'O', 'U', 'N', 'D']
  | .clr => ['C', 'L', 'R']
  | .zero => ['Z', 'E', 'R', 'O']

/-- Every mnemonic. -/
def mnemonics : List Mnemonic :=
  [.li, .lxi, .ldc, .ldx, .stc, .stx, .mov, .rdf, .add, .sub, .mul, .divmod, .cmp, .scale, .digits, .round, .clr, .zero]

/-- The mnemonic a text is, if it is one. -/
def readMnemonic (text : List Char) : Option Mnemonic := mnemonics.find? fun m => mnemonicText m = text

/-- The commands a mnemonic and its operands stand for (R82, R83); `none` where the line is no command.
DESIGN CHOICE, log entry 18: a `DIVMOD` line naming one slot for both results is refused, where R81 and R82 are silent; its word
`0x4D94C000` (for V3, V3, V1, V2) decodes to no command, and the host can present that word all the same. -/
def assemble (m : Mnemonic) (ops : List Operand) : Option (List Instr) :=
  match m, ops with
  | .li, [.slot d, o] => (unsignedImm 14 o).map fun imm => [.li d imm]
  | .lxi, [.slot d, .sign neg, o] => (signedImm o).map fun e => [.lxi d neg e]
  | .ldc, [.slot d] => some [.ldc d]
  | .ldx, [.slot d] => some [.ldx d]
  | .stc, [.slot v] => some [.stc v]
  | .stx, [.slot v] => some [.stx v]
  | .mov, [.slot d, .slot v] => some [.mov d v]
  | .rdf, [] => some [.rdf]
  | .add, [.slot d, .slot a, .slot b] => some [.add d a b]
  | .sub, [.slot d, .slot a, .slot b] => some [.sub d a b]
  | .mul, [.slot d, .slot a, .slot b] => some [.mul d a b]
  | .divmod, [.slot q, .slot r, .slot a, .slot b] => if q = r then none else some [.divmod q r a b]
  | .cmp, [.slot a, .slot b] => some [.cmp a b]
  | .scale, [.slot d, .slot a, o] => (unsignedImm 7 o).map fun n => [.scale d a n]
  | .digits, [.slot d, .slot a] => some [.digits d a]
  | .round, [.slot d, .slot a] => some [.round d a]
  | .clr, [.slot d] => some (expandClr d)
  | .zero, [.slot d, .sign neg] => some (expandZero d neg)
  | _, _ => none

/-- One line (R81): a comment runs from `;` to its end; a line of blanks is no command. -/
def readLine (line : List Char) : Option (List Instr) :=
  let text := trimBlanks (line.takeWhile (· ≠ ';'))
  let rest := trimBlanks (text.dropWhile (· ≠ ' '))
  if text.isEmpty then some []
  else do
    let m ← readMnemonic (text.takeWhile (· ≠ ' '))
    let ops ← if rest.isEmpty then some [] else (splitCommas rest).mapM fun piece => readOperand (trimBlanks piece)
    assemble m ops

/-! ### From commands back to operands (R82) -/

/-- The mnemonic of a command (R76). -/
def mnemonicOf : Instr → Mnemonic
  | .li _ _ => .li
  | .lxi _ _ _ => .lxi
  | .ldc _ => .ldc
  | .ldx _ => .ldx
  | .stc _ => .stc
  | .stx _ => .stx
  | .mov _ _ => .mov
  | .rdf => .rdf
  | .add _ _ _ => .add
  | .sub _ _ _ => .sub
  | .mul _ _ _ => .mul
  | .divmod _ _ _ _ => .divmod
  | .cmp _ _ => .cmp
  | .scale _ _ _ => .scale
  | .digits _ _ => .digits
  | .round _ _ => .round

/-- The operands of a command in the order of R82. -/
def operandsOf : Instr → List Operand
  | .li d imm => [.slot d, .decimal imm.toNat]
  | .lxi d neg e => [.slot d, .sign neg, .signed e.toInt]
  | .ldc d => [.slot d]
  | .ldx d => [.slot d]
  | .stc v => [.slot v]
  | .stx v => [.slot v]
  | .mov d v => [.slot d, .slot v]
  | .rdf => []
  | .add d a b => [.slot d, .slot a, .slot b]
  | .sub d a b => [.slot d, .slot a, .slot b]
  | .mul d a b => [.slot d, .slot a, .slot b]
  | .divmod q r a b => [.slot q, .slot r, .slot a, .slot b]
  | .cmp a b => [.slot a, .slot b]
  | .scale d a n => [.slot d, .slot a, .decimal n.toNat]
  | .digits d a => [.slot d, .slot a]
  | .round d a => [.slot d, .slot a]

end Sys2Proof.Machine
end

