-- ==== Sys2Proof/Machine/Ports.lean ====
section
/-!
DEFINITION. The unit at its ports, one rising clock edge at a time (20_memory.md rules R51 to R53; 70_reset_and_hazards.md rules R230
to R232, R235, R236). `step` is what the edges from one acceptance to its completion do together (R53).
-/

namespace Sys2Proof.Machine

open Sys2Proof

/-- The input ports as sampled at one rising edge of `clk` (R51). `rst` is high when it is `some`, with the contents the slot
fields are to hold (U1); a level, sampled at every edge (R230). -/
structure PortIn where
  rst : Option (Vector Slot 8)
  cmdValid : Bool
  cmd : CmdWord
  wdata : Coeff
  deriving DecidableEq, Repr

/-- The output ports (R51). `rdata` is `none` where U3 leaves it any value. -/
structure PortOut where
  cmdReady : Bool
  rspValid : Bool
  rdata : Option Coeff
  fault : Bool
  cause : BitVec 4
  fcmd : CmdWord
  deriving DecidableEq, Repr

/-- What the unit drives on its output ports (R51): in reset `rsp_valid = 0` and `rdata = 0` (R230). -/
def portOut (s : State) : PortOut where
  cmdReady := s.cmdReady
  rspValid := s.rsp.isSome
  rdata := match s.phase with
    | .inReset => some 0
    | _ => s.rsp
  fault := s.fsr.f
  cause := causeBits s.fsr.cause
  fcmd := s.fsr.fcmd

/-- One rising clock edge. `latency` is the unit's own, open choice (R236, D28): an accepted command completes at the edge
`latency % LAT_MAX + 1` edges after the accepting one, which is at most `LAT_MAX` (log entry 6). The host's ports are sampled
for a command only when one is valid and the unit ready (R52). -/
def clockEdge (p : PortIn) (latency : Nat) (s : State) : Answer :=
  match p.rst with
  | some contents => .next (enterReset contents s)
  | none =>
    match s.phase with
    | .inReset => .next (leaveReset s)
    | .inFlight (n + 1) => .next { hold s with phase := .inFlight n }
    | .inFlight 0 => completeCommand s
    | .idle =>
      if p.cmdValid && s.cmdReady then .next (accept ⟨p.cmd, p.wdata⟩ (latency % Config.latMax) s)
      else .next (hold s)

/-- A run of clock edges, each with its sampled ports and latency choice; it would stop where an edge answers no next state. -/
def runEdges : List (PortIn × Nat) → State → Answer
  | [], s => .next s
  | x :: xs, s =>
    match clockEdge x.1 x.2 s with
    | .next s' => runEdges xs s'
    | .fault r => .fault r
    | .refused r => .refused r

end Sys2Proof.Machine
end

