-- ==== Sys2Proof/Safety.lean ====
section
/-!
DEFINITION. The terms claims are stated in: what a completed and a faulted command leave, the read and write sets of every
command (10_state.md rule R32), the legal flag and fault registers (R27, R29), the machine's invariant, and how a run of a command list
ends (00_scope.md rule R10).
-/

namespace Sys2Proof.Machine

open Sys2Proof

/-! ### How a command leaves the machine -/

/-- The host's list, its `rst` pin and the sampled ports are as before. -/
def HostKept (s t : State) : Prop :=
  t.commands = s.commands ∧ t.rst = s.rst ∧ t.cmd = s.cmd ∧ t.wdata = s.wdata

/-- Outcome `Next` (R8, R9, R53) with `rdata`: apart from slots and flags, `FSR` is kept, the unit is idle again, `rsp_valid` is
pulsed with `rdata`, and the host's index has moved by one. -/
def Completed (s t : State) (rdata : Coeff) : Prop :=
  t.fsr = s.fsr ∧ t.phase = .idle ∧ t.rsp = some rdata ∧ t.pc = s.pc + 1 ∧ HostKept s t

/-- Outcome `Fault` (R8, R9, R203): `FSR` records the cause and the command word; no slot field, no flag, and not the host's
index changes; `rsp_valid` is not pulsed. -/
def FaultEntered (s t : State) (cause : Cause) : Prop :=
  t.fsr = ⟨true, some cause, s.cmd⟩ ∧ t.slots = s.slots ∧ t.flags = s.flags ∧ t.phase = .idle ∧ t.rsp = none
    ∧ t.pc = s.pc ∧ HostKept s t

/-- Nothing of the unit, of the sampled ports or of the host has changed, and no response is shown (R215, R235; R51: the response is a
pulse). -/
def UnitHeld (s t : State) : Prop :=
  t.slots = s.slots ∧ t.flags = s.flags ∧ t.fsr = s.fsr ∧ t.phase = s.phase ∧ t.rsp = none ∧ t.pc = s.pc ∧ HostKept s t

/-- Every slot but `d` is as before. -/
def OtherSlotsKept (s t : State) (d : SlotIx) : Prop := ∀ j, j ≠ d → t.slot j = s.slot j

/-- `E[d]`, `S[d]`, `T[d]` are as before. -/
def AuxKept (s t : State) (d : SlotIx) : Prop :=
  (t.slot d).e = (s.slot d).e ∧ (t.slot d).s = (s.slot d).s ∧ (t.slot d).t = (s.slot d).t

/-- No slot field but `C[d]` has changed, and `C[d]` is `v`. -/
def WroteC (s t : State) (d : SlotIx) (v : Nat) : Prop :=
  t.coeff d = v ∧ AuxKept s t d ∧ OtherSlotsKept s t d

/-- No slot field but `E[d]`, `S[d]`, `T[d]` has changed, and they are as given. -/
def WroteAux (s t : State) (d : SlotIx) (e : Int) (neg : Bool) (tag : Tag) : Prop :=
  t.expo d = e ∧ (t.slot d).s = neg ∧ (t.slot d).t = tag ∧ (t.slot d).c = (s.slot d).c ∧ OtherSlotsKept s t d

/-! ### The read and write sets of R32 -/

/-- The slots whose `C` a command reads. -/
def readsC : Instr → List SlotIx
  | .li _ _ => []
  | .lxi _ _ _ => []
  | .ldc _ => []
  | .ldx _ => []
  | .stc v => [v]
  | .stx _ => []
  | .mov _ v => [v]
  | .rdf => []
  | .add _ a b => [a, b]
  | .sub _ a b => [a, b]
  | .mul _ a b => [a, b]
  | .divmod _ _ a b => [a, b]
  | .cmp a b => [a, b]
  | .scale _ a _ => [a]
  | .digits _ a => [a]
  | .round _ a => [a]

/-- The slots whose `E` and `S` a command reads. -/
def readsExpoSign : Instr → List SlotIx
  | .li _ _ => []
  | .lxi _ _ _ => []
  | .ldc _ => []
  | .ldx _ => []
  | .stc _ => []
  | .stx v => [v]
  | .mov _ v => [v]
  | .rdf => []
  | .add _ _ _ => []
  | .sub _ _ _ => []
  | .mul _ _ _ => []
  | .divmod _ _ _ _ => []
  | .cmp _ _ => []
  | .scale _ _ _ => []
  | .digits _ _ => []
  | .round _ a => [a]

/-- The slots whose `T` a command reads: `ROUND` is not among the readers (R147). -/
def readsTag : Instr → List SlotIx
  | .li _ _ => []
  | .lxi _ _ _ => []
  | .ldc _ => []
  | .ldx _ => []
  | .stc _ => []
  | .stx v => [v]
  | .mov _ v => [v]
  | .rdf => []
  | .add _ _ _ => []
  | .sub _ _ _ => []
  | .mul _ _ _ => []
  | .divmod _ _ _ _ => []
  | .cmp _ _ => []
  | .scale _ _ _ => []
  | .digits _ _ => []
  | .round _ _ => []

/-- How many of the low bits of `wdata` a command reads. -/
def readsWdata : Instr → Nat
  | .li _ _ => 0
  | .lxi _ _ _ => 0
  | .ldc _ => 256
  | .ldx _ => 35
  | .stc _ => 0
  | .stx _ => 0
  | .mov _ _ => 0
  | .rdf => 0
  | .add _ _ _ => 0
  | .sub _ _ _ => 0
  | .mul _ _ _ => 0
  | .divmod _ _ _ _ => 0
  | .cmp _ _ => 0
  | .scale _ _ _ => 0
  | .digits _ _ => 0
  | .round _ _ => 0

/-- The slots whose `C` a command writes. -/
def writesC : Instr → List SlotIx
  | .li d _ => [d]
  | .lxi _ _ _ => []
  | .ldc d => [d]
  | .ldx _ => []
  | .stc _ => []
  | .stx _ => []
  | .mov d _ => [d]
  | .rdf => []
  | .add d _ _ => [d]
  | .sub d _ _ => [d]
  | .mul d _ _ => [d]
  | .divmod q r _ _ => [q, r]
  | .cmp _ _ => []
  | .scale d _ _ => [d]
  | .digits d _ => [d]
  | .round d _ => [d]

/-- The slots whose `E`, `S`, `T` a command writes. -/
def writesAux : Instr → List SlotIx
  | .li _ _ => []
  | .lxi d _ _ => [d]
  | .ldc _ => []
  | .ldx d => [d]
  | .stc _ => []
  | .stx _ => []
  | .mov d _ => [d]
  | .rdf => []
  | .add _ _ _ => []
  | .sub _ _ _ => []
  | .mul _ _ _ => []
  | .divmod _ _ _ _ => []
  | .cmp _ _ => []
  | .scale _ _ _ => []
  | .digits _ _ => []
  | .round d _ => [d]

/-- The command that writes `CY` (R27). -/
def isAdd : Instr → Bool
  | .add _ _ _ => true
  | _ => false

/-- The command that writes `EQ` and `LT` (R27). -/
def isCmp : Instr → Bool
  | .cmp _ _ => true
  | _ => false

/-- The command that writes `OF`, `UF` and `TN` (R27). -/
def isRound : Instr → Bool
  | .round _ _ => true
  | _ => false

/-- The two states hold the same in every field the command reads (R32). -/
def ReadsAgree (i : Instr) (s t : State) : Prop :=
  (∀ a ∈ readsC i, (t.slot a).c = (s.slot a).c)
    ∧ (∀ a ∈ readsExpoSign i, (t.slot a).e = (s.slot a).e ∧ (t.slot a).s = (s.slot a).s)
    ∧ (∀ a ∈ readsTag i, (t.slot a).t = (s.slot a).t)
    ∧ (∀ k < readsWdata i, t.wdata.getLsbD k = s.wdata.getLsbD k)
    ∧ (i = .rdf → t.flags = s.flags)

/-- The two states hold the same in every field the command writes (R32). -/
def WritesAgree (i : Instr) (s t : State) : Prop :=
  (∀ d ∈ writesC i, (t.slot d).c = (s.slot d).c)
    ∧ (∀ d ∈ writesAux i, (t.slot d).e = (s.slot d).e ∧ (t.slot d).s = (s.slot d).s ∧ (t.slot d).t = (s.slot d).t)
    ∧ (isAdd i = true → t.flags.cy = s.flags.cy)
    ∧ (isCmp i = true → t.flags.eq = s.flags.eq ∧ t.flags.lt = s.flags.lt)
    ∧ (isRound i = true → t.flags.of = s.flags.of ∧ t.flags.uf = s.flags.uf ∧ t.flags.tn = s.flags.tn)

/-- Every field the command does not write is as before (R32). -/
def FrameKept (i : Instr) (s t : State) : Prop :=
  (∀ j, j ∉ writesC i → (t.slot j).c = (s.slot j).c)
    ∧ (∀ j, j ∉ writesAux i → (t.slot j).e = (s.slot j).e ∧ (t.slot j).s = (s.slot j).s ∧ (t.slot j).t = (s.slot j).t)
    ∧ (isAdd i = false → t.flags.cy = s.flags.cy)
    ∧ (isCmp i = false → t.flags.eq = s.flags.eq ∧ t.flags.lt = s.flags.lt)
    ∧ (isRound i = false → t.flags.of = s.flags.of ∧ t.flags.uf = s.flags.uf ∧ t.flags.tn = s.flags.tn)

/-! ### When a command faults (R200) -/

/-- The fault a legal command raises in a state, if any: the table of R200. -/
def faultOf (i : Instr) (s : State) : Option Cause :=
  match i with
  | .li _ _ => none
  | .lxi _ _ _ => none
  | .ldc _ => none
  | .ldx _ => none
  | .stc _ => none
  | .stx _ => none
  | .mov _ _ => none
  | .rdf => none
  | .add _ a b => if 2 ^ 256 ≤ s.coeff a + s.coeff b then some .capacityOverflow else none
  | .sub _ a b => if s.coeff a < s.coeff b then some .operandOrder else none
  | .mul _ a b => if 2 ^ 256 ≤ s.coeff a * s.coeff b then some .capacityOverflow else none
  | .divmod _ _ _ b => if s.coeff b = 0 then some .divideByZero else none
  | .cmp _ _ => none
  | .scale _ a n => if 2 ^ 256 ≤ s.coeff a * 10 ^ n.toNat then some .capacityOverflow else none
  | .digits _ _ => none
  | .round _ _ => none

/-- The recorded cause is one that the recorded command word can raise (R200). -/
def FaultAttributed (f : Fsr) : Prop :=
  match f.cause with
  | none => True
  | some .illegalCommand => ∀ i, decode f.fcmd ≠ .ok i
  | some .divideByZero => ∃ q r a b, decode f.fcmd = .ok (.divmod q r a b)
  | some .operandOrder => ∃ d a b, decode f.fcmd = .ok (.sub d a b)
  | some .capacityOverflow =>
    (∃ d a b, decode f.fcmd = .ok (.add d a b)) ∨ (∃ d a b, decode f.fcmd = .ok (.mul d a b))
      ∨ ∃ d a n, decode f.fcmd = .ok (.scale d a n)

/-! ### The machine's invariant -/

/-- The implications of R27: `EQ` and `LT` are never both 1; `OF = 1` implies `UF = 0` and `TN = 0`; `UF = 1` implies `TN = 1`. -/
def FlagsLegal (f : Flags) : Prop :=
  ¬(f.eq = true ∧ f.lt = true) ∧ (f.of = true → f.uf = false ∧ f.tn = false) ∧ (f.uf = true → f.tn = true)

/-- The legal contents of `FSR` (R29, R202, U6): a cause exactly while faulted, and no command word while not. -/
def FsrLegal (f : Fsr) : Prop :=
  (f.f = true ↔ f.cause.isSome = true) ∧ (f.f = false → f.fcmd = 0)

/-- What holds at reset and is kept by every step and every clock edge: legal flags, a legal `FSR`, no command in flight in the
faulted state (R205), a command in flight shows no response yet (R53), and in reset no response is shown (R230) and `FLAGS` and `FSR` are already
clear (DESIGN CHOICE, log entry 5: R230 gives them on leaving the reset state). -/
def MachineInv (s : State) : Prop :=
  FlagsLegal s.flags ∧ FsrLegal s.fsr
    ∧ (s.fsr.f = true → s.phase = .idle ∧ s.rsp = none)
    ∧ (∀ n, s.phase = .inFlight n → s.rsp = none)
    ∧ (s.phase = .inReset → s.rsp = none ∧ s.flags = Flags.clear ∧ s.fsr = Fsr.clear)

/-! ### Finished values and runs -/

/-- A finished Finite value: the source's data-model invariants (R21, R22, R146). -/
def FinishedFinite (v : Slot) : Prop :=
  v.t = .finite ∧ v.c.toNat ≤ Config.cmax ∧ Config.emin ≤ v.e.toInt ∧ v.e.toInt ≤ Config.emax

/-- A run of the host's list has ended complete (R10): every command of the list has completed with `Next`. DESIGN CHOICE, log entry
17: R10 speaks of the last command and is silent on a list with none; here a run of the empty list is complete at once. -/
def RunComplete (s : State) : Prop := s.fsr.f = false ∧ s.commands.length ≤ s.pc

/-- A run of the host's list has ended faulted (R10). -/
def RunFaulted (s : State) : Prop := s.fsr.f = true

end Sys2Proof.Machine
end

