-- ==== Sys2Proof/Certificates/Slice0/Obligations.lean ====
section
/-!
DEFINITION. The statements about the model, each from the spec's numbered rules.
-/

open Sys2Proof Sys2Proof.Machine

/-! ### Encoding -/

/-- Words written out from the formats R72 to R74, one of every command, and one illegal word of each case of R78. -/
def Obligations.SpecWordsDecodeAsWritten : Prop :=
  decode 0x04000002 = .ok (.li 0 2) ∧ decode 0x0A003FFF = .ok (.lxi 4 false 0x3FFF) ∧ decode 0x0E800000 = .ok (.ldc 5)
    ∧ decode 0x13000000 = .ok (.ldx 6) ∧ decode 0x14400000 = .ok (.stc 4) ∧ decode 0x18600000 = .ok (.stx 6)
    ∧ decode 0x1D100000 = .ok (.mov 2 1) ∧ decode 0x20000000 = .ok .rdf ∧ decode 0x41940000 = .ok (.add 3 1 2)
    ∧ decode 0x45A20000 = .ok (.sub 3 2 1) ∧ decode 0x4A060000 = .ok (.mul 4 0 3)
    ∧ decode 0x4E314000 = .ok (.divmod 4 5 3 0) ∧ decode 0x50220000 = .ok (.cmp 2 1)
    ∧ decode 0x5590007F = .ok (.scale 3 1 127) ∧ decode 0x59100000 = .ok (.digits 2 1)
    ∧ decode 0x61B00000 = .ok (.round 3 3) ∧ decode 0x00000000 = .error (.unassignedOpcode 0)
    ∧ decode 0x40940001 = .error (.nonzeroReservedField 0x10) ∧ decode 0x4D94C000 = .error (.sameDestination 3)

/-- Decoding the word of a well-formed command gives the command back, with every operand (R71 to R76, R82). -/
def Obligations.DecodeInvertsEncode : Prop :=
  ∀ i : Instr, i.wellFormed = true → decode (encode i) = .ok i

/-- A legal word is the word of the command it decodes to: no two words are one command, no bit is ignored (R71, R78). -/
def Obligations.EncodeInvertsDecode : Prop :=
  ∀ (w : CmdWord) (i : Instr), decode w = .ok i → i.wellFormed = true ∧ encode i = w

/-- The sixteen rows of R76: `op`, `match`, `mask`. -/
def opcodeMap : List (BitVec 6 × CmdWord × CmdWord) :=
  [(0x01, 0x04000000, 0xFC7FC000), (0x02, 0x08000000, 0xFC7F8000), (0x03, 0x0C000000, 0xFC7FFFFF),
   (0x04, 0x10000000, 0xFC7FFFFF), (0x05, 0x14000000, 0xFF8FFFFF), (0x06, 0x18000000, 0xFF8FFFFF),
   (0x07, 0x1C000000, 0xFC0FFFFF), (0x08, 0x20000000, 0xFFFFFFFF)]
  ++ [(0x10, 0x40000000, 0xFC01FFFF), (0x11, 0x44000000, 0xFC01FFFF), (0x12, 0x48000000, 0xFC01FFFF),
   (0x13, 0x4C000000, 0xFC003FFF), (0x14, 0x50000000, 0xFF81FFFF), (0x15, 0x54000000, 0xFC0FFF80),
   (0x16, 0x58000000, 0xFC0FFFFF), (0x18, 0x60000000, 0xFC0FFFFF)]

/-- R78: a word is illegal exactly when (a) its `op` is not listed, or (b) it is listed and the row's test fails, or (c) it
is `DIVMOD` with `vd = vd2`; the all-zero and all-ones words are illegal; and an illegal word raises `IllegalCommand` and
changes no slot and no flag. -/
def Obligations.IllegalWordsAreExactlyTheUnmatched : Prop :=
  (∀ w : CmdWord, (∀ i, decode w ≠ .ok i) ↔
      (∀ r ∈ opcodeMap, opcodeOf w ≠ r.1)
        ∨ (∃ r ∈ opcodeMap, opcodeOf w = r.1 ∧ w &&& r.2.2 ≠ r.2.1)
        ∨ (opcodeOf w = 0x13 ∧ w.extractLsb' 23 3 = w.extractLsb' 14 3))
    ∧ (∀ i, decode 0x00000000 ≠ .ok i) ∧ (∀ i, decode 0xFFFFFFFF ≠ .ok i)
    ∧ ∀ s : State, (∀ i, decode s.cmd ≠ .ok i) → ∃ t, completeCommand s = .next t ∧ FaultEntered s t .illegalCommand

/-- R79: there is no word but the sixteen commands and the illegal ones, and the opcode values 0x00, 0x09..0x0F, 0x17 and
0x19..0x3F are illegal whatever the other bits. -/
def Obligations.UnassignedOpcodesAreIllegal : Prop :=
  ∀ w : CmdWord,
    ((opcodeOf w).toNat = 0x00 ∨ (0x09 ≤ (opcodeOf w).toNat ∧ (opcodeOf w).toNat ≤ 0x0F) ∨ (opcodeOf w).toNat = 0x17
      ∨ 0x19 ≤ (opcodeOf w).toNat) → ∀ i, decode w ≠ .ok i

/-- R75: where the immediates stand in a legal word and how they are extended; the slot fields beside them are plain indices. -/
def Obligations.ImmediatesAreExtendedAsStated : Prop :=
  ∀ w : CmdWord,
    (∀ d imm, decode w = .ok (.li d imm) →
        (zextImm imm).toNat = w.toNat % 2 ^ 14 ∧ d.val = w.toNat / 2 ^ 23 % 8)
    ∧ (∀ d a n, decode w = .ok (.scale d a n) →
        n.toNat = w.toNat % 2 ^ 7 ∧ w.toNat / 2 ^ 7 % 2 ^ 7 = 0 ∧ d.val = w.toNat / 2 ^ 23 % 8
          ∧ a.val = w.toNat / 2 ^ 20 % 8)
    ∧ (∀ d neg e, decode w = .ok (.lxi d neg e) →
        neg = w.getLsbD 14 ∧ d.val = w.toNat / 2 ^ 23 % 8 ∧ -8192 ≤ (sextImm e).toInt ∧ (sextImm e).toInt ≤ 8191
          ∧ (sextImm e).toInt = ((w.toNat % 2 ^ 14 : Nat) : Int) - if w.getLsbD 13 then (2 : Int) ^ 14 else (0 : Int))

/-! ### Registers and ports -/

/-- R25, R27, R29, R202: the layouts of the auxiliary word, of `FLAGS` and of `FSR`, bit by bit; the tag and cause codes. -/
def Obligations.RegisterBitsStandWhereStated : Prop :=
  (∀ v : Slot, (auxWord v).extractLsb' 0 32 = v.e ∧ (auxWord v).getLsbD 32 = v.s
      ∧ (auxWord v).extractLsb' 33 2 = tagCode v.t)
    ∧ (tagCode .finite = 0 ∧ tagCode .infinity = 1 ∧ tagCode .quietNaN = 2 ∧ tagCode .signalingNaN = 3)
    ∧ (∀ f : Flags, (flagBits f).getLsbD 0 = f.cy ∧ (flagBits f).getLsbD 1 = f.eq ∧ (flagBits f).getLsbD 2 = f.lt
      ∧ (flagBits f).getLsbD 3 = f.of ∧ (flagBits f).getLsbD 4 = f.uf ∧ (flagBits f).getLsbD 5 = f.tn)
    ∧ (∀ f : Fsr, (fsrBits f).getLsbD 0 = f.f ∧ (fsrBits f).extractLsb' 1 4 = causeBits f.cause
      ∧ (fsrBits f).extractLsb' 5 32 = f.fcmd)
    ∧ (causeBits none = 0 ∧ causeBits (some .illegalCommand) = 1 ∧ causeBits (some .divideByZero) = 2
      ∧ causeBits (some .operandOrder) = 3 ∧ causeBits (some .capacityOverflow) = 4)

/-- R54: on the 256-bit ports word `w` is bits [64w+63:64w], word 0 the least significant, and the four words are the value. -/
def Obligations.PortWordsAreOrderedLowFirst : Prop :=
  (∀ w0 w1 w2 w3 : BitVec 64, (ofWords w0 w1 w2 w3).toNat
      = w0.toNat + 2 ^ 64 * w1.toNat + 2 ^ 128 * w2.toNat + 2 ^ 192 * w3.toNat)
    ∧ ∀ v : Coeff, ofWords (word64 v 0) (word64 v 1) (word64 v 2) (word64 v 3) = v

/-- R51: `cmd_ready` is 1 iff the unit is not in reset, holds no command in flight and is not faulted; what the fault pins and
the response pins show. -/
def Obligations.OutputPinsShowTheState : Prop :=
  ∀ s : State,
    ((portOut s).cmdReady = true ↔ s.phase ≠ .inReset ∧ (∀ n, s.phase ≠ .inFlight n) ∧ s.fsr.f = false)
    ∧ (portOut s).fault = s.fsr.f ∧ (portOut s).cause = causeBits s.fsr.cause ∧ (portOut s).fcmd = s.fsr.fcmd
    ∧ ((portOut s).rspValid = true ↔ ∃ v, s.rsp = some v)
    ∧ (s.phase ≠ .inReset → (portOut s).rdata = s.rsp)

/-! ### The step -/

/-- The bridge from a run to the per-command statements: when the word the host presents decodes to `i`, the step is `exec i`
of the state with the word and its data sampled (R7, R9, R52; the list in the state is log entry 3); a command already in flight
completes the same way (R53). -/
def Obligations.StepRunsTheDecodedCommand : Prop :=
  (∀ (s : State) (c : Command) (i : Instr), s.rst = none → s.fsr.f = false → s.phase = .idle →
      s.commands[s.pc]? = some c → decode c.word = .ok i →
      step s = exec i { s with cmd := c.word, wdata := c.wdata, phase := .inFlight 0, rsp := none })
    ∧ ∀ (s : State) (n : Nat) (i : Instr), s.rst = none → s.fsr.f = false → s.phase = .inFlight n →
      decode s.cmd = .ok i → step s = exec i s

/-- R207, R203: an illegal word the host presents is refused before any operand is read: fault entry, with that word in `FCMD`. That
the entry is a next state is log entry 8. -/
def Obligations.StepTakesIllegalCommandFault : Prop :=
  ∀ (s : State) (c : Command), s.rst = none → s.fsr.f = false → s.phase = .idle → s.commands[s.pc]? = some c →
    (∀ i, decode c.word ≠ .ok i) →
    ∃ t, step s = .next t ∧ t.fsr = ⟨true, some .illegalCommand, c.word⟩ ∧ t.slots = s.slots ∧ t.flags = s.flags
      ∧ t.pc = s.pc ∧ t.rsp = none ∧ t.commands = s.commands

/-- The model's reading of the two outcomes of R8 (DEDUCED, log entry 8): the step of a command that faults answers a next state, in
which the fault has been entered, and only a unit already faulted answers a fault, the sticky one of U7 (R205). So a unit that is not
faulted, or is being reset, always answers a next state, and no step refuses. -/
def Obligations.StepAlwaysAnswersUnlessFaulted : Prop :=
  (∀ s : State, s.fsr.f = false ∨ s.rst ≠ none → ∃ t, step s = .next t)
    ∧ (∀ s : State, s.fsr.f = true → s.rst = none → step s = .fault (.stopped s.fsr.cause s.fsr.fcmd))
    ∧ ∀ (s : State) (r : Refusal), step s ≠ .refused r

/-- R203: when a step enters the faulted state, `FSR` records a cause and the command word, which is the one presented or the one in
flight; on the pins stand `fault`, a code from 1 to 4 and the word; no slot, no flag and not the host's index changes, and no response
is pulsed. -/
def Obligations.FaultEntryWritesFsrOnly : Prop :=
  ∀ s t : State, s.rst = none → s.fsr.f = false → step s = .next t → t.fsr.f = true →
    (∃ k, t.fsr = ⟨true, some k, t.cmd⟩) ∧ t.slots = s.slots ∧ t.flags = s.flags ∧ t.pc = s.pc ∧ t.rsp = none
      ∧ (portOut t).fault = true ∧ 1 ≤ (portOut t).cause.toNat ∧ (portOut t).cause.toNat ≤ 4
      ∧ (portOut t).fcmd = t.cmd
      ∧ (∀ n, s.phase = .inFlight n → t.cmd = s.cmd)
      ∧ (s.phase = .idle → ∃ c, s.commands[s.pc]? = some c ∧ t.cmd = c.word)

/-- R205: in the faulted state, through any clock edges with `rst` low, no command is accepted and nothing changes; a step answers
the same fault; a reset edge leaves it. The last clause speaks of the registers while `rst` is high: DESIGN CHOICE, log entry 5. -/
def Obligations.FaultedStateIsStuckUntilReset : Prop :=
  ∀ s : State, MachineInv s → s.fsr.f = true →
    (∀ (es : List (PortIn × Nat)), (∀ x ∈ es, x.1.rst = none) →
      ∃ t, runEdges es s = .next t ∧ t.slots = s.slots ∧ t.flags = s.flags ∧ t.fsr = s.fsr ∧ t.cmdReady = false
        ∧ t.cmd = s.cmd ∧ t.wdata = s.wdata)
    ∧ (s.rst = none → step s = .fault (.stopped s.fsr.cause s.fsr.fcmd))
    ∧ ∀ (p : PortIn) (l : Nat) (v : Vector Slot 8), p.rst = some v →
      ∃ t, clockEdge p l s = .next t ∧ t.fsr.f = false ∧ t.slots = v

/-! ### Reset -/

/-- R230, R31, of a clock edge and of a step. From any state, `rst` high enters the reset state, where `cmd_ready = 0`,
`rsp_valid = 0`, `rdata = 0`, and stays in it; the first edge (or step) with `rst` low leaves it with `FLAGS` and `FSR` all 0, whatever
contents in the slots, no command in flight and `cmd_ready = 1`. So does a step with `rst` low from any reset state that meets the
invariant. With `rst` low neither leaves the faulted state. The model's `State.reset` is such a state. -/
def Obligations.ResetLeavesTheStatedValues : Prop :=
  (∀ (s : State) (p : PortIn) (l : Nat) (v : Vector Slot 8), p.rst = some v →
    ∃ t, clockEdge p l s = .next t ∧ t.phase = .inReset ∧ (portOut t).cmdReady = false ∧ (portOut t).rspValid = false
      ∧ (portOut t).rdata = some 0
      ∧ ∀ (q : PortIn) (m : Nat), q.rst = none →
        ∃ u, clockEdge q m t = .next u ∧ u.slots = v ∧ flagBits u.flags = 0 ∧ fsrBits u.fsr = 0 ∧ u.phase = .idle
          ∧ u.rsp = none ∧ (portOut u).cmdReady = true)
    ∧ (∀ (s : State) (v : Vector Slot 8), s.rst = some v →
      ∃ t, step s = .next t ∧ t.phase = .inReset ∧ (portOut t).cmdReady = false ∧ (portOut t).rspValid = false
        ∧ (portOut t).rdata = some 0
        ∧ ∃ u, step { t with rst := none } = .next u ∧ u.slots = v ∧ flagBits u.flags = 0 ∧ fsrBits u.fsr = 0
          ∧ u.phase = .idle ∧ u.rsp = none ∧ (portOut u).cmdReady = true)
    ∧ (∀ s : State, MachineInv s → s.phase = .inReset → s.rst = none →
      ∃ u, step s = .next u ∧ flagBits u.flags = 0 ∧ fsrBits u.fsr = 0 ∧ u.phase = .idle ∧ u.rsp = none
        ∧ (portOut u).cmdReady = true)
    ∧ (∀ (s t : State) (p : PortIn) (l : Nat), MachineInv s → s.fsr.f = true → p.rst = none → clockEdge p l s = .next t →
        t.fsr.f = true)
    ∧ (∀ s t : State, s.fsr.f = true → s.rst = none → step s ≠ .next t)
    ∧ ∃ v, State.reset = State.resetWith v

/-- The model's form of the two reset steps (DESIGN CHOICE, log entries 2 and 5): the step that samples `rst` high spends the pin and
leaves the contents it carried in the slots, with `FLAGS` and `FSR` already clear and the host's list and index kept; the step that
leaves reset changes nothing but the phase and the response. -/
def Obligations.ResetStepSpendsThePin : Prop :=
  (∀ (s : State) (v : Vector Slot 8), s.rst = some v →
    ∃ t, step s = .next t ∧ t.rst = none ∧ t.slots = v ∧ t.flags = Flags.clear ∧ t.fsr = Fsr.clear
      ∧ t.commands = s.commands ∧ t.pc = s.pc)
    ∧ ∀ s : State, s.rst = none → s.fsr.f = false → s.phase = .inReset →
      ∃ t, step s = .next t ∧ t.phase = .idle ∧ t.rsp = none ∧ t.slots = s.slots ∧ t.flags = s.flags ∧ t.fsr = s.fsr
        ∧ t.pc = s.pc ∧ HostKept s t

/-- R232: reset during a command abandons it. It does not complete (no response is pulsed, the host's index stays), no fault is
raised, and the slots hold whatever the reset gave them. What `FSR` and the slots hold while `rst` is high is DESIGN CHOICE, log entry
5. -/
def Obligations.ResetAbandonsTheCommandInFlight : Prop :=
  ∀ (s : State) (p : PortIn) (l n : Nat) (v : Vector Slot 8), s.phase = .inFlight n → p.rst = some v →
    ∃ t, clockEdge p l s = .next t ∧ t.phase = .inReset ∧ t.rsp = none ∧ t.fsr.f = false ∧ (portOut t).fault = false
      ∧ t.slots = v ∧ t.pc = s.pc

/-! ### Invariants -/

/-- The invariant, and that no fault is recorded, hold right after reset, whatever the slots then hold (R27, R29, R31).
The invariant's clause about the reset state is log entry 5. -/
def Obligations.InvariantHoldsAfterReset : Prop :=
  (∀ v, MachineInv (State.resetWith v) ∧ FaultAttributed (State.resetWith v).fsr) ∧ MachineInv State.reset

/-- Every step keeps the invariant: the flag implications of R27, the legal contents of `FSR` (R29, R202), and what R205 and R53 say of
the faulted state and of a command in flight. Its clause that `FLAGS` and `FSR` are clear already in the reset state is the model's
choice (DESIGN CHOICE, log entry 5), not R230's words. -/
def Obligations.EveryStepKeepsTheInvariant : Prop :=
  ∀ s t : State, MachineInv s → step s = .next t → MachineInv t

/-- Every clock edge keeps the same invariant. Its clause about `FLAGS` and `FSR` while `rst` is high is the model's choice (DESIGN CHOICE,
log entry 5), not R230's words. -/
def Obligations.EveryClockEdgeKeepsTheInvariant : Prop :=
  ∀ (p : PortIn) (l : Nat) (s t : State), MachineInv s → clockEdge p l s = .next t → MachineInv t

/-- R200, R203: what `FSR` records is a fault its recorded command word can raise, and every step keeps it so: `DivideByZero` beside a
`DIVMOD` word, `OperandOrder` beside a `SUB` word, `CapacityOverflow` beside an `ADD`, `MUL` or `SCALE` word, `IllegalCommand` beside
an illegal word. -/
def Obligations.EveryStepKeepsFaultsAttributed : Prop :=
  ∀ s t : State, FaultAttributed s.fsr → step s = .next t → FaultAttributed t.fsr

/-! ### The ports refine the step -/

/-- R52: the unit samples `cmd` and `wdata` at the accepting edge and at no other; what the host presents while `cmd_ready = 0` has no
effect; an accepted command makes `cmd_ready = 0`. And on a ready unit an edge, or a step (log entry 11), at which nothing is accepted
holds the state and ends the `rsp_valid` pulse (R215, R235, R51). -/
def Obligations.UnitSamplesOnlyAtAcceptance : Prop :=
  (∀ (p q : PortIn) (l : Nat) (s : State), p.rst = q.rst → ¬(p.cmdValid = true ∧ s.cmdReady = true) →
      ¬(q.cmdValid = true ∧ s.cmdReady = true) → clockEdge p l s = clockEdge q l s)
    ∧ (∀ (p : PortIn) (l : Nat) (s : State), p.rst = none → p.cmdValid = true → s.cmdReady = true →
      ∃ t, clockEdge p l s = .next t ∧ t.cmd = p.cmd ∧ t.wdata = p.wdata ∧ t.cmdReady = false ∧ t.rsp = none
        ∧ t.slots = s.slots ∧ t.flags = s.flags ∧ t.fsr = s.fsr)
    ∧ (∀ (p : PortIn) (l : Nat) (s : State), p.rst = none → p.cmdValid = false → s.cmdReady = true →
      ∃ t, clockEdge p l s = .next t ∧ UnitHeld s t ∧ (portOut t).cmdReady = true ∧ (portOut t).rspValid = false)
    ∧ ∀ s : State, s.rst = none → s.cmdReady = true → s.commands[s.pc]? = none →
      ∃ t, step s = .next t ∧ UnitHeld s t ∧ (portOut t).cmdReady = true ∧ (portOut t).rspValid = false

/-- R53, R7, R236: from the edge that accepts a command to the edge that completes it, for every latency the unit may take and
whatever the host does on its other ports meanwhile, the unit does exactly one `step`; until the completing edge it is not ready,
shows no response and has changed no slot, no flag and not `FSR`; and it completes within `LAT_MAX` edges. The model's choice in it:
the free latency below an uninterpreted `LAT_MAX` (log entry 6), and that `cmd_ready` returns with the completing edge (log entry 7). -/
def Obligations.ClockEdgesRefineTheStep : Prop :=
  ∀ (s : State) (c : Command) (p : PortIn) (l : Nat) (es : List (PortIn × Nat)),
    s.rst = none → s.fsr.f = false → s.phase = .idle → s.commands[s.pc]? = some c →
    p.rst = none → p.cmdValid = true → p.cmd = c.word → p.wdata = c.wdata →
    (∀ x ∈ es, x.1.rst = none) → es.length = l % Config.latMax + 1 →
    runEdges ((p, l) :: es) s = step s ∧ es.length ≤ Config.latMax
      ∧ ∀ n < es.length, ∃ t, runEdges ((p, l) :: es.take n) s = .next t ∧ t.cmdReady = false ∧ t.rsp = none
        ∧ t.slots = s.slots ∧ t.flags = s.flags ∧ t.fsr = s.fsr

/-- R9, R10, R236: a run of the host's list ends: after one step for each command left it is complete, or some command before
faulted, the run ends at that first fault, and the index is then that of the faulting command, whose word `FSR` records. The list in the
state is log entry 3, the fault entry as a next state log entry 8, and that a run with no command left is complete at once log entry 17. -/
def Obligations.RunOfTheCommandListEnds : Prop :=
  ∀ s : State, s.rst = none → s.fsr.f = false → s.phase = .idle → s.pc ≤ s.commands.length →
    (∃ t, Host.Core.run core (s.commands.length - s.pc) s = .next t ∧ RunComplete t ∧ t.pc = s.commands.length
        ∧ t.commands = s.commands)
    ∨ ∃ k t c, k ≤ s.commands.length - s.pc ∧ Host.Core.run core k s = .next t ∧ RunFaulted t
        ∧ t.commands = s.commands ∧ s.commands[t.pc]? = some c ∧ t.fsr.fcmd = c.word ∧ t.pc + 1 = s.pc + k

/-! ### Transfer commands -/

/-- R170 `LI`. -/
def Obligations.LiLoadsTheImmediate : Prop :=
  ∀ (d : SlotIx) (imm : BitVec 14), (encode (.li d imm)).toNat = 0x01 * 2 ^ 26 + d.val * 2 ^ 23 + imm.toNat
    ∧ ∀ s : State, ∃ t, exec (.li d imm) s = .next t ∧ Completed s t 0 ∧ WroteC s t d imm.toNat ∧ t.flags = s.flags

/-- R171 `LXI`. -/
def Obligations.LxiLoadsSignAndExponent : Prop :=
  ∀ (d : SlotIx) (neg : Bool) (e : BitVec 14),
    (encode (.lxi d neg e)).toNat = 0x02 * 2 ^ 26 + d.val * 2 ^ 23 + neg.toNat * 2 ^ 14 + e.toNat
    ∧ ∀ s : State, ∃ t, exec (.lxi d neg e) s = .next t ∧ Completed s t 0 ∧ WroteAux s t d e.toInt neg .finite
      ∧ t.flags = s.flags

/-- R172 `LDC`. -/
def Obligations.LdcLoadsTheWriteData : Prop :=
  ∀ d : SlotIx, (encode (.ldc d)).toNat = 0x03 * 2 ^ 26 + d.val * 2 ^ 23
    ∧ ∀ s : State, ∃ t, exec (.ldc d) s = .next t ∧ Completed s t 0 ∧ WroteC s t d s.wdata.toNat ∧ t.flags = s.flags

/-- R173 `LDX`: the tag written is the one whose code stands in bits 34:33, and bits 255:35 are ignored. -/
def Obligations.LdxLoadsTheAuxiliaryWord : Prop :=
  ∀ d : SlotIx, (encode (.ldx d)).toNat = 0x04 * 2 ^ 26 + d.val * 2 ^ 23
    ∧ ∀ s : State, ∃ t tag, exec (.ldx d) s = .next t ∧ Completed s t 0
      ∧ WroteAux s t d (s.wdata.extractLsb' 0 32).toInt (s.wdata.getLsbD 32) tag
      ∧ tagCode tag = s.wdata.extractLsb' 33 2 ∧ t.flags = s.flags

/-- R174 `STC`. -/
def Obligations.StcReadsTheCoefficient : Prop :=
  ∀ v : SlotIx, (encode (.stc v)).toNat = 0x05 * 2 ^ 26 + v.val * 2 ^ 20
    ∧ ∀ s : State, ∃ t, exec (.stc v) s = .next t ∧ Completed s t (s.slot v).c ∧ t.slots = s.slots ∧ t.flags = s.flags

/-- R175 `STX`: `rdata` is `{T, S, E}` in bits 34:0, bits 255:35 are 0. -/
def Obligations.StxReadsTheAuxiliaryWord : Prop :=
  ∀ v : SlotIx, (encode (.stx v)).toNat = 0x06 * 2 ^ 26 + v.val * 2 ^ 20
    ∧ ∀ s : State, ∃ t rd, exec (.stx v) s = .next t ∧ Completed s t rd ∧ t.slots = s.slots ∧ t.flags = s.flags
      ∧ rd.toNat = (tagCode (s.slot v).t).toNat * 2 ^ 33 + (s.slot v).s.toNat * 2 ^ 32 + (s.slot v).e.toNat

/-- R176 `MOV`. -/
def Obligations.MovCopiesTheSlot : Prop :=
  ∀ d v : SlotIx, (encode (.mov d v)).toNat = 0x07 * 2 ^ 26 + d.val * 2 ^ 23 + v.val * 2 ^ 20
    ∧ ∀ s : State, ∃ t, exec (.mov d v) s = .next t ∧ Completed s t 0 ∧ t.slot d = s.slot v ∧ OtherSlotsKept s t d
      ∧ t.slot v = s.slot v ∧ t.flags = s.flags

/-- R177 `RDF`. -/
def Obligations.RdfReadsTheFlags : Prop :=
  encode .rdf = 0x20000000
    ∧ ∀ s : State, ∃ t rd, exec .rdf s = .next t ∧ Completed s t rd ∧ t.slots = s.slots ∧ t.flags = s.flags
      ∧ rd.toNat = s.flags.cy.toNat + 2 * s.flags.eq.toNat + 4 * s.flags.lt.toNat + 8 * s.flags.of.toNat
        + 16 * s.flags.uf.toNat + 32 * s.flags.tn.toNat

/-! ### Wide-integer arithmetic -/

/-- R110 `ADD`. -/
def Obligations.AddWritesTheExactSum : Prop :=
  ∀ d a b : SlotIx,
    (encode (.add d a b)).toNat = 0x10 * 2 ^ 26 + d.val * 2 ^ 23 + a.val * 2 ^ 20 + b.val * 2 ^ 17
    ∧ ∀ s : State,
      (s.coeff a + s.coeff b < 2 ^ 256 → ∃ t, exec (.add d a b) s = .next t ∧ Completed s t 0
        ∧ WroteC s t d (s.coeff a + s.coeff b)
        ∧ t.flags = { s.flags with cy := decide (10 ^ 34 ≤ s.coeff a + s.coeff b) })
      ∧ (2 ^ 256 ≤ s.coeff a + s.coeff b → ∃ t, exec (.add d a b) s = .next t ∧ FaultEntered s t .capacityOverflow)

/-- R112 `SUB`. -/
def Obligations.SubWritesTheExactDifference : Prop :=
  ∀ d a b : SlotIx,
    (encode (.sub d a b)).toNat = 0x11 * 2 ^ 26 + d.val * 2 ^ 23 + a.val * 2 ^ 20 + b.val * 2 ^ 17
    ∧ ∀ s : State,
      (s.coeff b ≤ s.coeff a → ∃ t, exec (.sub d a b) s = .next t ∧ Completed s t 0
        ∧ WroteC s t d (s.coeff a - s.coeff b) ∧ t.flags = s.flags)
      ∧ (s.coeff a < s.coeff b → ∃ t, exec (.sub d a b) s = .next t ∧ FaultEntered s t .operandOrder)

/-- R114 `CMP`: exactly one of less, equal, greater. -/
def Obligations.CmpOrdersTheCoefficients : Prop :=
  ∀ a b : SlotIx, (encode (.cmp a b)).toNat = 0x14 * 2 ^ 26 + a.val * 2 ^ 20 + b.val * 2 ^ 17
    ∧ ∀ s : State, ∃ t, exec (.cmp a b) s = .next t ∧ Completed s t 0 ∧ t.slots = s.slots
      ∧ (t.flags.eq = true ↔ s.coeff a = s.coeff b) ∧ (t.flags.lt = true ↔ s.coeff a < s.coeff b)
      ∧ ¬(t.flags.eq = true ∧ t.flags.lt = true)
      ∧ t.flags.cy = s.flags.cy ∧ t.flags.of = s.flags.of ∧ t.flags.uf = s.flags.uf ∧ t.flags.tn = s.flags.tn

/-- R116 `MUL`. -/
def Obligations.MulWritesTheExactProduct : Prop :=
  ∀ d a b : SlotIx,
    (encode (.mul d a b)).toNat = 0x12 * 2 ^ 26 + d.val * 2 ^ 23 + a.val * 2 ^ 20 + b.val * 2 ^ 17
    ∧ ∀ s : State,
      (s.coeff a * s.coeff b < 2 ^ 256 → ∃ t, exec (.mul d a b) s = .next t ∧ Completed s t 0
        ∧ WroteC s t d (s.coeff a * s.coeff b) ∧ t.flags = s.flags)
      ∧ (2 ^ 256 ≤ s.coeff a * s.coeff b → ∃ t, exec (.mul d a b) s = .next t ∧ FaultEntered s t .capacityOverflow)

/-- R120, R121 `DIVMOD`: quotient and remainder of the floor division, `DivideByZero` for every dividend; and the word with one
slot for both results is illegal. -/
def Obligations.DivmodWritesQuotientAndRemainder : Prop :=
  (∀ q r a b : SlotIx, q ≠ r →
    (encode (.divmod q r a b)).toNat
        = 0x13 * 2 ^ 26 + q.val * 2 ^ 23 + a.val * 2 ^ 20 + b.val * 2 ^ 17 + r.val * 2 ^ 14
    ∧ ∀ s : State,
      (s.coeff b ≠ 0 → ∃ t, exec (.divmod q r a b) s = .next t ∧ Completed s t 0
        ∧ s.coeff a = t.coeff q * s.coeff b + t.coeff r ∧ t.coeff r < s.coeff b
        ∧ AuxKept s t q ∧ AuxKept s t r ∧ (∀ j, j ≠ q → j ≠ r → t.slot j = s.slot j) ∧ t.flags = s.flags)
      ∧ (s.coeff b = 0 → ∃ t, exec (.divmod q r a b) s = .next t ∧ FaultEntered s t .divideByZero))
    ∧ ∀ (w : CmdWord) (q r a b : SlotIx), decode w = .ok (.divmod q r a b) → q ≠ r

/-- R124 `SCALE`. -/
def Obligations.ScaleWritesTheExactMultiple : Prop :=
  ∀ (d a : SlotIx) (n : BitVec 7),
    (encode (.scale d a n)).toNat = 0x15 * 2 ^ 26 + d.val * 2 ^ 23 + a.val * 2 ^ 20 + n.toNat
    ∧ ∀ s : State,
      (s.coeff a * 10 ^ n.toNat < 2 ^ 256 → ∃ t, exec (.scale d a n) s = .next t ∧ Completed s t 0
        ∧ WroteC s t d (s.coeff a * 10 ^ n.toNat) ∧ t.flags = s.flags)
      ∧ (2 ^ 256 ≤ s.coeff a * 10 ^ n.toNat →
        ∃ t, exec (.scale d a n) s = .next t ∧ FaultEntered s t .capacityOverflow)

/-- R128 `DIGITS`: the digit count of R103, from 1 to 78. -/
def Obligations.DigitsWritesTheDigitCount : Prop :=
  ∀ d a : SlotIx, (encode (.digits d a)).toNat = 0x16 * 2 ^ 26 + d.val * 2 ^ 23 + a.val * 2 ^ 20
    ∧ ∀ s : State, ∃ t n, exec (.digits d a) s = .next t ∧ Completed s t 0 ∧ WroteC s t d n ∧ t.flags = s.flags
      ∧ 1 ≤ n ∧ n ≤ 78 ∧ s.coeff a < 10 ^ n ∧ (s.coeff a = 0 → n = 1) ∧ (s.coeff a ≠ 0 → 10 ^ (n - 1) ≤ s.coeff a)

/-- R103: the digit count is 1 at 0, and for `v ≥ 1` the unique `d ≥ 1` with `10^(d−1) ≤ v < 10^d`. -/
def Obligations.DigitCountIsTheUniqueCount : Prop :=
  digitCount 0 = 1 ∧ ∀ v : Nat, 1 ≤ v → ∀ d : Nat, (1 ≤ d ∧ 10 ^ (d - 1) ≤ v ∧ v < 10 ^ d) ↔ d = digitCount v

/-- R130 (h): what the arithmetic commands undo. Where the result overwrites the second operand (`d = b`) the undoing command sees the
result twice; both cases are stated. -/
def Obligations.ArithmeticCommandsUndoEachOther : Prop :=
  (∀ (s t : State) (d a b x : SlotIx), exec (.add d a b) s = .next t → t.rsp ≠ none →
      ∃ u, exec (.sub x d b) t = .next u ∧ Completed t u 0
        ∧ u.coeff x = if d = b then 0 else s.coeff a)
    ∧ (∀ (s t : State) (d a b q r : SlotIx), q ≠ r → exec (.mul d a b) s = .next t → t.rsp ≠ none →
      t.coeff b ≠ 0 →
      ∃ u, exec (.divmod q r d b) t = .next u ∧ Completed t u 0
        ∧ u.coeff q = (if d = b then 1 else s.coeff a) ∧ u.coeff r = 0)
    ∧ (∀ (s t : State) (d a b q r : SlotIx) (n : BitVec 7), q ≠ r → exec (.scale d a n) s = .next t → t.rsp ≠ none →
      t.coeff b = 10 ^ n.toNat →
      ∃ u, exec (.divmod q r d b) t = .next u ∧ Completed t u 0 ∧ u.coeff q = s.coeff a ∧ u.coeff r = 0)
    ∧ (∀ a n : Nat, 1 ≤ a → digitCount (a * 10 ^ n) = digitCount a + n)
    ∧ ∀ (s : State) (d a b : SlotIx), exec (.add d a b) s = exec (.add d b a) s ∧ exec (.mul d a b) s = exec (.mul d b a) s

/-- R206, R101: how the host keeps clear of `CapacityOverflow`, and that operands within the source's contract never raise it. -/
def Obligations.BoundedOperandsNeverOverflow : Prop :=
  ∀ (s : State) (d a b : SlotIx),
    ((s.coeff a ≤ 10 ^ 34 - 1 ∧ s.coeff b ≤ 10 ^ 34 - 1) ∨ (s.coeff a < 2 ^ 255 ∧ s.coeff b < 2 ^ 255) →
      ∃ t, exec (.add d a b) s = .next t ∧ Completed s t 0)
    ∧ ((s.coeff a ≤ 10 ^ 34 - 1 ∧ s.coeff b ≤ 10 ^ 34 - 1) ∨ digitCount (s.coeff a) + digitCount (s.coeff b) ≤ 77 →
      ∃ t, exec (.mul d a b) s = .next t ∧ Completed s t 0)
    ∧ ∀ n : BitVec 7, digitCount (s.coeff a) + n.toNat ≤ 77 →
      ∃ t, exec (.scale d a n) s = .next t ∧ Completed s t 0

/-! ### The rounder -/

/-- R141: `rhe(v, r)` by its cases; it is the integer nearest to `v / 10^r`, the even one of the two at an exact tie; and the
consequences the rule names. -/
def Obligations.DigitRemovalRoundsHalfEven : Prop :=
  ∀ v r : Nat,
    (r = 0 → rhe v r = v)
    ∧ (1 ≤ r → rhe v r = if 5 * 10 ^ (r - 1) < v % 10 ^ r then v / 10 ^ r + 1
        else if v % 10 ^ r = 5 * 10 ^ (r - 1) ∧ v / 10 ^ r % 2 = 1 then v / 10 ^ r + 1 else v / 10 ^ r)
    ∧ (∀ m : Nat, |(v : Int) - rhe v r * 10 ^ r| ≤ |(v : Int) - m * 10 ^ r|)
    ∧ (2 * |(v : Int) - rhe v r * 10 ^ r| = 10 ^ r → rhe v r % 2 = 0)
    ∧ (v * 2 ≤ 10 ^ r → rhe v r = 0) ∧ rhe v r ≤ v / 10 ^ r + 1 ∧ (v % 10 ^ r = 0 → rhe v r * 10 ^ r = v)

/-- R143, the precision stage: `(c1, e1)` is what it makes of `(c, e)`. -/
def AfterPrecisionStage (c : Nat) (e : Int) (c1 : Nat) (e1 : Int) : Prop :=
  (digitCount c ≤ 34 → c1 = c ∧ e1 = e)
    ∧ (34 < digitCount c →
      (digitCount (rhe c (digitCount c - 34)) ≤ 34 →
        c1 = rhe c (digitCount c - 34) ∧ e1 = e + (digitCount c - 34 : Nat))
      ∧ (34 < digitCount (rhe c (digitCount c - 34)) →
        c1 = rhe (rhe c (digitCount c - 34)) 1 ∧ e1 = e + (digitCount c - 34 : Nat) + 1))

/-- R143: the precision stage leaves at most 34 digits with no third pass; the extra pass happens only at `10^34` and is exact,
giving `10^33`; a 256-bit coefficient loses at most 44 digits in the first pass. -/
def Obligations.PrecisionStageNeedsNoThirdPass : Prop :=
  ∀ (c : Nat) (e : Int) (c1 : Nat) (e1 : Int), AfterPrecisionStage c e c1 e1 →
    digitCount c1 ≤ 34 ∧ c1 ≤ 10 ^ 34 - 1
    ∧ (34 < digitCount c → rhe c (digitCount c - 34) ≤ 10 ^ 34
      ∧ (34 < digitCount (rhe c (digitCount c - 34)) → rhe c (digitCount c - 34) = 10 ^ 34 ∧ c1 = 10 ^ 33
        ∧ e1 = e + (digitCount c - 34 : Nat) + 1))
    ∧ (c < 2 ^ 256 → digitCount c - 34 ≤ 44)

/-- R142, R144 `ROUND`, total: what the destination slot and the flags hold after it, from the triple in the source slot, by the
three stages; every other slot and flag is kept. -/
def Obligations.RoundWritesTheRoundedTriple : Prop :=
  ∀ d a : SlotIx, (encode (.round d a)).toNat = 0x18 * 2 ^ 26 + d.val * 2 ^ 23 + a.val * 2 ^ 20
    ∧ ∀ (s : State) (c1 : Nat) (e1 : Int), AfterPrecisionStage (s.coeff a) (s.expo a) c1 e1 →
      ∃ t, exec (.round d a) s = .next t ∧ Completed s t 0 ∧ OtherSlotsKept s t d
        ∧ (t.slot d).s = (s.slot a).s
        ∧ t.flags.cy = s.flags.cy ∧ t.flags.eq = s.flags.eq ∧ t.flags.lt = s.flags.lt
        ∧ (6111 < e1 → (t.slot d).t = .infinity ∧ t.expo d = 0 ∧ t.coeff d = 0
          ∧ t.flags.of = true ∧ t.flags.uf = false ∧ t.flags.tn = false)
        ∧ (e1 < -6176 → (t.slot d).t = .finite ∧ t.expo d = -6176 ∧ t.coeff d = rhe c1 (-6176 - e1).toNat
          ∧ t.flags.of = false ∧ (t.flags.uf = true ↔ t.coeff d = 0) ∧ t.flags.tn = true)
        ∧ (-6176 ≤ e1 → e1 ≤ 6111 → (t.slot d).t = .finite ∧ t.expo d = e1 ∧ t.coeff d = c1
          ∧ t.flags.of = false ∧ t.flags.uf = false ∧ t.flags.tn = false)

/-- R145: what the deficit shift of a coefficient of at most 34 digits gives at `k ≥ 35`, at `k = 34`, and at most for any
`k ≥ 1`. -/
def Obligations.DeficitShiftReachesZero : Prop :=
  ∀ c : Nat, c ≤ 10 ^ 34 - 1 →
    (∀ k, 35 ≤ k → rhe c k = 0) ∧ (rhe c 34 = if 5 * 10 ^ 33 < c then 1 else 0) ∧ (∀ k, 1 ≤ k → rhe c k ≤ 10 ^ 33)

/-- R146: the output invariants of `ROUND`. -/
def Obligations.RoundOutputIsFinishedOrInfinity : Prop :=
  ∀ (d a : SlotIx) (s t : State), exec (.round d a) s = .next t →
    (t.slot d).s = (s.slot a).s
    ∧ (((t.slot d).t = .finite ∧ t.coeff d ≤ 10 ^ 34 - 1 ∧ -6176 ≤ t.expo d ∧ t.expo d ≤ 6111)
      ∨ ((t.slot d).t = .infinity ∧ t.coeff d = 0 ∧ t.expo d = 0))
    ∧ (t.flags.of = true ↔ (t.slot d).t = .infinity)
    ∧ (∀ c1 e1, AfterPrecisionStage (s.coeff a) (s.expo a) c1 e1 → (t.flags.tn = true ↔ e1 < -6176))
    ∧ (t.flags.uf = true ↔ t.flags.tn = true ∧ t.coeff d = 0)

/-- R148: `ROUND` of a finished value, whatever the source's tag, copies the triple, writes the tag Finite and clears the three flags;
hence `ROUND` of what `ROUND` left Finite leaves the same four fields, and clears the three flags again. -/
def Obligations.RoundIsIdentityOnFinishedValues : Prop :=
  (∀ (d a : SlotIx) (s : State), s.coeff a ≤ 10 ^ 34 - 1 → -6176 ≤ s.expo a → s.expo a ≤ 6111 →
    ∃ t, exec (.round d a) s = .next t ∧ t.slot d = { s.slot a with t := .finite }
      ∧ t.flags.of = false ∧ t.flags.uf = false ∧ t.flags.tn = false)
  ∧ ∀ (d a x : SlotIx) (s t : State), exec (.round d a) s = .next t → (t.slot d).t = .finite →
    ∃ u, exec (.round x d) t = .next u ∧ u.slot x = t.slot d
      ∧ u.flags.of = false ∧ u.flags.uf = false ∧ u.flags.tn = false

/-- R148: where only the precision stage acts, the result is a nearest multiple of `10^E` to `c × 10^e`; where only the deficit stage
acts, a nearest multiple of `10^−6176`. Both are written on integers: `E − e` digits have gone. -/
def Obligations.RoundIsNearestInOneStage : Prop :=
  ∀ (d a : SlotIx) (s t : State), exec (.round d a) s = .next t → (t.slot d).t = .finite →
    (t.flags.tn = false → ∀ k : Nat, t.expo d = s.expo a + k → ∀ m : Nat,
      |(s.coeff a : Int) - t.coeff d * 10 ^ k| ≤ |(s.coeff a : Int) - m * 10 ^ k|)
    ∧ (s.coeff a ≤ 10 ^ 34 - 1 → ∀ k : Nat, t.expo d = s.expo a + k → ∀ m : Nat,
      |(s.coeff a : Int) - t.coeff d * 10 ^ k| ≤ |(s.coeff a : Int) - m * 10 ^ k|)

/-! ### Whole-machine rules -/

/-- R32, the write sets: a command writes no field but those its row names, and a faulting command writes nothing but `FSR`. The
frame of every command. -/
def Obligations.CommandsWriteOnlyTheirFields : Prop :=
  ∀ (i : Instr) (s t : State), exec i s = .next t →
    FrameKept i s t ∧ HostKept s t
    ∧ (t.rsp ≠ none → t.fsr = s.fsr ∧ t.pc = s.pc + 1)
    ∧ (t.rsp = none → t.slots = s.slots ∧ t.flags = s.flags ∧ t.pc = s.pc ∧ t.fsr.f = true ∧ t.fsr.fcmd = s.cmd)

/-- R32, R7, the read sets: two states that agree in the fields a command reads give the same outcome, the same response and the
same values in the fields it writes. So `ROUND` does not see the source's tag (R147) nor `LDX` the upper bits of `wdata` (U9). -/
def Obligations.CommandsReadOnlyTheirFields : Prop :=
  ∀ (i : Instr) (s s' t t' : State), ReadsAgree i s s' → exec i s = .next t → exec i s' = .next t' →
    t'.rsp = t.rsp ∧ (t.rsp = none → t'.fsr.cause = t.fsr.cause) ∧ (t.rsp ≠ none → WritesAgree i t t')

/-- R28: each flag is written by its producer alone and anew at each completed execution, whatever the flags were; a command that
faults writes none; and no command but `RDF` has a result that depends on a flag. -/
def Obligations.FlagsAreWrittenByTheirProducersOnly : Prop :=
  (∀ (i : Instr) (s t : State), exec i s = .next t →
    (isAdd i = false ∨ t.rsp = none → t.flags.cy = s.flags.cy)
    ∧ (isCmp i = false ∨ t.rsp = none → t.flags.eq = s.flags.eq ∧ t.flags.lt = s.flags.lt)
    ∧ (isRound i = false ∨ t.rsp = none → t.flags.of = s.flags.of ∧ t.flags.uf = s.flags.uf ∧ t.flags.tn = s.flags.tn))
  ∧ ∀ (i : Instr) (s t : State) (f : Flags), exec i s = .next t →
    ∃ u, exec i (s.setFlags f) = .next u ∧ u.slots = t.slots ∧ u.fsr = t.fsr ∧ u.pc = t.pc
      ∧ (i ≠ .rdf → u.rsp = t.rsp)
      ∧ (isAdd i = true → t.rsp ≠ none → u.flags.cy = t.flags.cy)
      ∧ (isCmp i = true → u.flags.eq = t.flags.eq ∧ u.flags.lt = t.flags.lt)
      ∧ (isRound i = true → u.flags.of = t.flags.of ∧ u.flags.uf = t.flags.uf ∧ u.flags.tn = t.flags.tn)

/-- R200: the table of faults. An illegal word raises `IllegalCommand`; a legal command raises the one fault its row names exactly
under its row's condition, and otherwise completes; the codes are the table's. -/
def Obligations.CommandsFaultExactlyAsTabled : Prop :=
  (∀ (i : Instr) (s : State) (k : Cause), i.wellFormed = true → faultOf i s = some k →
      ∃ t, exec i s = .next t ∧ FaultEntered s t k)
    ∧ (∀ (i : Instr) (s : State), i.wellFormed = true → faultOf i s = none →
      ∃ t rd, exec i s = .next t ∧ Completed s t rd)
    ∧ (∀ s : State, (∀ i, decode s.cmd ≠ .ok i) → ∃ t, completeCommand s = .next t ∧ FaultEntered s t .illegalCommand)
    ∧ causeCode .illegalCommand = 1 ∧ causeCode .divideByZero = 2 ∧ causeCode .operandOrder = 3
    ∧ causeCode .capacityOverflow = 4

/-! ### Assembler -/

/-- R82, R76: a command's mnemonic in capitals is read back, and with its operands in the stated order it assembles to that
command. -/
def Obligations.AssemblingTheOperandsGivesTheCommand : Prop :=
  ∀ i : Instr, i.wellFormed = true →
    readMnemonic (mnemonicText (mnemonicOf i)) = some (mnemonicOf i) ∧ assemble (mnemonicOf i) (operandsOf i) = some [i]

/-- R83, R233: `CLR` clears the coefficient, `ZERO` builds the signed zero and the pair `LI Vd, 1`, `LXI Vd, +, 0` the constant ONE, in
any state, and touch no other slot. -/
def Obligations.PseudoCommandsBuildTheConstants : Prop :=
  ∀ (d : SlotIx) (neg : Bool) (s : State),
    (∃ t, expandClr d = [.li d 0] ∧ exec (.li d 0) s = .next t ∧ WroteC s t d 0)
    ∧ (∃ t u, expandZero d neg = [.li d 0, .lxi d neg 0] ∧ exec (.li d 0) s = .next t ∧ exec (.lxi d neg 0) t = .next u
      ∧ u.slot d = ⟨0, 0, neg, .finite⟩ ∧ OtherSlotsKept s u d)
    ∧ (∃ t u, expandOne d = [.li d 1, .lxi d false 0] ∧ exec (.li d 1) s = .next t ∧ exec (.lxi d false 0) t = .next u
      ∧ u.slot d = ⟨1, 0, false, .finite⟩ ∧ OtherSlotsKept s u d)
end

