-- ==== Sys2Proof/Laws/Arith.lean ====
section
/-!
SUPPORT. The exact decimal arithmetic: one spec lemma for the digit count, the bounds of the digit-removal primitive, and what
the precision stage leaves.
-/

namespace Sys2Proof.Machine

open Sys2Proof

/-! ### digit_count -/

theorem digitCountFuel_pos (fuel v : Nat) : 1 ≤ digitCountFuel fuel v := by
  cases fuel with
  | zero => simp [digitCountFuel]
  | succ f => simp only [digitCountFuel]; split <;> omega

theorem digitCountFuel_le_iff {fuel v : Nat} (hv : v < 10 ^ (fuel + 1)) (d : Nat) :
    digitCountFuel fuel v ≤ d + 1 ↔ v < 10 ^ (d + 1) := by
  induction fuel generalizing v d with
  | zero =>
    have hp : 10 ^ 1 ≤ 10 ^ (d + 1) := Nat.pow_le_pow_right (by norm_num) (by omega)
    simp only [digitCountFuel]
    omega
  | succ f ih =>
    have hp : 10 ^ 1 ≤ 10 ^ (d + 1) := Nat.pow_le_pow_right (by norm_num) (by omega)
    have hd : v / 10 < 10 ^ (f + 1) := by rw [pow_succ] at hv; omega
    simp only [digitCountFuel]
    split
    · omega
    · cases d with
      | zero =>
        have := digitCountFuel_pos f (v / 10)
        omega
      | succ d =>
        have key := ih hd d
        rw [pow_succ 10 (d + 1)]
        omega

theorem digitCount_pos (v : Nat) : 1 ≤ digitCount v := digitCountFuel_pos _ v

/-- What the digit count says, once: at most `d` digits (`d ≥ 1`) is below `10^d`. -/
theorem digitCount_le_iff (v : Nat) {d : Nat} (hd : 1 ≤ d) : digitCount v ≤ d ↔ v < 10 ^ d := by
  obtain ⟨d, rfl⟩ : ∃ k, d = k + 1 := ⟨d - 1, by omega⟩
  refine digitCountFuel_le_iff ?_ d
  exact lt_of_lt_of_le Nat.lt_log2_self (Nat.pow_le_pow_left (by norm_num) _)

theorem lt_digitCount_iff (v : Nat) {d : Nat} (hd : 1 ≤ d) : d < digitCount v ↔ 10 ^ d ≤ v := by
  have := digitCount_le_iff v hd
  omega

/-- A 256-bit value has at most 78 digits (R102). -/
theorem digitCount_coeff_le (c : Coeff) : digitCount c.toNat ≤ 78 :=
  (digitCount_le_iff _ (by norm_num)).mpr (lt_of_lt_of_le c.isLt (by norm_num))

/-! ### Digit removal -/

@[simp] theorem rhe_zero (v : Nat) : rhe v 0 = v := by simp [rhe]

theorem le_rhe (v r : Nat) : v / 10 ^ r ≤ rhe v r := by
  unfold rhe
  split
  · simp_all
  · dsimp only
    split_ifs <;> omega

theorem rhe_le (v r : Nat) : rhe v r ≤ v / 10 ^ r + 1 := by
  unfold rhe
  split
  · simp_all
  · dsimp only
    split_ifs <;> omega

/-- An exact removal adds nothing. -/
theorem rhe_exact {v r : Nat} (h : v % 10 ^ r = 0) : rhe v r = v / 10 ^ r := by
  unfold rhe
  split
  · simp_all
  · have : 0 < 5 * 10 ^ (r - 1) := by positivity
    dsimp only
    rw [if_neg (by omega), if_neg (by omega)]

/-- Half a unit or less is removed to nothing. -/
theorem rhe_eq_zero {v r : Nat} (hr : 1 ≤ r) (h : v * 2 ≤ 10 ^ r) : rhe v r = 0 := by
  obtain ⟨k, rfl⟩ : ∃ k, r = k + 1 := ⟨r - 1, by omega⟩
  have hp : 10 ^ (k + 1) = 10 * 10 ^ k := by ring
  have hk : 0 < 10 ^ k := by positivity
  have hlt : v < 10 ^ (k + 1) := by omega
  have hq : v / 10 ^ (k + 1) = 0 := Nat.div_eq_of_lt hlt
  have hm : v % 10 ^ (k + 1) = v := Nat.mod_eq_of_lt hlt
  simp only [rhe, hq, hm, Nat.add_sub_cancel]
  rw [if_neg (by omega), if_neg (by omega), if_neg (by omega)]

/-- The deficit shift never forms `10^k` for `k > 34`, and is the removal of `k` digits all the same (R145). -/
theorem deficitShift_eq_rhe {c : Nat} (hc : c < 10 ^ 34) (k : Nat) : deficitShift c k = rhe c k := by
  unfold deficitShift
  split
  · rename_i hk
    refine (rhe_eq_zero (by omega) ?_).symm
    have : 10 ^ 35 ≤ 10 ^ k := Nat.pow_le_pow_right (by norm_num) hk
    omega
  · rfl

/-- Removing at least one digit from a finished coefficient leaves at most `10^33` (R145). -/
theorem rhe_le_of_pos {c k : Nat} (hc : c < 10 ^ 34) (hk : 1 ≤ k) : rhe c k ≤ 10 ^ 33 := by
  have h1 : c / 10 ^ k ≤ c / 10 ^ 1 := Nat.div_le_div_left (Nat.pow_le_pow_right (by norm_num) hk) (by norm_num)
  have h2 := rhe_le c k
  omega

/-! ### The precision stage -/

/-- Removing all digits above the 34th leaves at most `10^34`. -/
theorem rhe_excess_le {c : Nat} (h : 34 < digitCount c) : rhe c (digitCount c - 34) ≤ 10 ^ 34 := by
  have hlt : c < 10 ^ digitCount c := (digitCount_le_iff c (digitCount_pos c)).mp le_rfl
  have hp : 10 ^ digitCount c = 10 ^ 34 * 10 ^ (digitCount c - 34) := by rw [← pow_add]; congr 1; omega
  have hq : c / 10 ^ (digitCount c - 34) < 10 ^ 34 := by
    rw [Nat.div_lt_iff_lt_mul (by positivity), ← hp]
    exact hlt
  have := rhe_le c (digitCount c - 34)
  omega

/-- The precision stage on a coefficient of at most 34 digits does nothing (R143). -/
theorem precisionStage_of_lt {c : Nat} (e : Int) (h : c < 10 ^ 34) : precisionStage c e = (c, e) := by
  have : digitCount c ≤ 34 := (digitCount_le_iff c (by norm_num)).mpr h
  simp only [precisionStage, Config.precision]
  rw [if_neg (by omega)]

/-- The precision stage leaves a finished coefficient (R143: no third pass is needed). -/
theorem precisionStage_lt (c : Nat) (e : Int) : (precisionStage c e).1 < 10 ^ 34 := by
  unfold precisionStage
  split
  · rename_i h
    have hle := rhe_excess_le h
    dsimp only
    split
    · rename_i h2
      have h3 := (lt_digitCount_iff _ (by norm_num)).mp h2
      have : rhe c (digitCount c - 34) = 10 ^ 34 := le_antisymm hle h3
      simp only [Config.precision] at *
      rw [this]
      decide
    · rename_i h2
      exact (digitCount_le_iff _ (by norm_num)).mp (by simpa using h2)
  · rename_i h
    exact (digitCount_le_iff _ (by norm_num)).mp (by simpa using h)

end Sys2Proof.Machine
end

