-- ==== Sys2Proof/Laws/Encoding.lean ====
section
/-!
SUPPORT. The three formats: every bit of a word the encoder lays out, the word as a number, and what the decoder's field readers give
on it.
-/

namespace Sys2Proof

/-! ### Slot fields -/

@[simp] theorem slotBits_toNat (i : SlotIx) : (slotBits i).toNat = i.val := rfl

@[simp] theorem slotBits_zero : slotBits 0 = 0#3 := rfl

variable (op : BitVec 6) (vd vs1 vs2 vd2 : SlotIx) (imm : BitVec 14) (s : Bool)

/-! ### The word as a number -/

/-- Appending `n` low bits, as a number. -/
theorem toNat_append_eq {m n : Nat} (x : BitVec m) (y : BitVec n) : (x ++ y).toNat = x.toNat * 2 ^ n + y.toNat := by
  rw [BitVec.toNat_append, ← Nat.shiftLeft_add_eq_or_of_lt y.isLt, Nat.shiftLeft_eq]

theorem formatR_toNat :
    (formatR op vd vs1 vs2 vd2).toNat
      = op.toNat * 2 ^ 26 + vd.val * 2 ^ 23 + vs1.val * 2 ^ 20 + vs2.val * 2 ^ 17 + vd2.val * 2 ^ 14 := by
  change (op ++ slotBits vd ++ slotBits vs1 ++ slotBits vs2 ++ slotBits vd2 ++ 0#14 : BitVec (6 + 3 + 3 + 3 + 3 + 14)).toNat = _
  simp only [toNat_append_eq, slotBits_toNat, BitVec.toNat_ofNat]
  omega

theorem formatI_toNat :
    (formatI op vd vs1 imm).toNat = op.toNat * 2 ^ 26 + vd.val * 2 ^ 23 + vs1.val * 2 ^ 20 + imm.toNat := by
  change (op ++ slotBits vd ++ slotBits vs1 ++ 0#6 ++ imm : BitVec (6 + 3 + 3 + 6 + 14)).toNat = _
  simp only [toNat_append_eq, slotBits_toNat, BitVec.toNat_ofNat]
  omega

theorem formatX_toNat :
    (formatX op vd s imm).toNat = op.toNat * 2 ^ 26 + vd.val * 2 ^ 23 + s.toNat * 2 ^ 14 + imm.toNat := by
  change (op ++ slotBits vd ++ 0#8 ++ BitVec.ofBool s ++ imm : BitVec (6 + 3 + 8 + 1 + 14)).toNat = _
  simp only [toNat_append_eq, slotBits_toNat, BitVec.toNat_ofNat, BitVec.toNat_ofBool]
  omega

/-! ### The word bit by bit -/

theorem formatR_getLsbD (i : Nat) :
    (formatR op vd vs1 vs2 vd2).getLsbD i
      = if i < 14 then false else if i < 17 then (slotBits vd2).getLsbD (i - 14)
        else if i < 20 then (slotBits vs2).getLsbD (i - 17) else if i < 23 then (slotBits vs1).getLsbD (i - 20)
        else if i < 26 then (slotBits vd).getLsbD (i - 23) else op.getLsbD (i - 26) := by
  change (op ++ slotBits vd ++ slotBits vs1 ++ slotBits vs2 ++ slotBits vd2 ++ 0#14 : BitVec (6 + 3 + 3 + 3 + 3 + 14)).getLsbD i = _
  simp only [BitVec.getLsbD_append, BitVec.getLsbD_zero, Nat.sub_sub]
  split_ifs <;> first | rfl | omega

theorem formatI_getLsbD (i : Nat) :
    (formatI op vd vs1 imm).getLsbD i
      = if i < 14 then imm.getLsbD i else if i < 20 then false else if i < 23 then (slotBits vs1).getLsbD (i - 20)
        else if i < 26 then (slotBits vd).getLsbD (i - 23) else op.getLsbD (i - 26) := by
  change (op ++ slotBits vd ++ slotBits vs1 ++ 0#6 ++ imm : BitVec (6 + 3 + 3 + 6 + 14)).getLsbD i = _
  simp only [BitVec.getLsbD_append, BitVec.getLsbD_zero, Nat.sub_sub]
  split_ifs <;> first | rfl | omega

theorem formatX_getLsbD (i : Nat) :
    (formatX op vd s imm).getLsbD i
      = if i < 14 then imm.getLsbD i else if i < 15 then s else if i < 23 then false
        else if i < 26 then (slotBits vd).getLsbD (i - 23) else op.getLsbD (i - 26) := by
  change (op ++ slotBits vd ++ 0#8 ++ BitVec.ofBool s ++ imm : BitVec (6 + 3 + 8 + 1 + 14)).getLsbD i = _
  simp only [BitVec.getLsbD_append, BitVec.getLsbD_zero, Nat.sub_sub]
  split_ifs <;> first | rfl | omega | (simp; omega)

/-! ### What the field readers give -/

theorem opcodeOf_toNat (w : CmdWord) : (opcodeOf w).toNat = w.toNat / 2 ^ 26 := by
  have := w.isLt
  simp only [opcodeOf, BitVec.extractLsb'_toNat, Nat.shiftRight_eq_div_pow]
  omega

theorem slotField_val (w : CmdWord) (lo : Nat) : (slotField w lo).val = w.toNat / 2 ^ lo % 8 := by
  simp only [slotField, BitVec.val_toFin, BitVec.extractLsb'_toNat, Nat.shiftRight_eq_div_pow]

theorem slotBits_slotField (w : CmdWord) (lo : Nat) : slotBits (slotField w lo) = w.extractLsb' lo 3 := rfl

@[simp] theorem opcodeOf_formatR : opcodeOf (formatR op vd vs1 vs2 vd2) = op := by
  apply BitVec.eq_of_toNat_eq
  rw [opcodeOf_toNat, formatR_toNat]
  omega

@[simp] theorem opcodeOf_formatI : opcodeOf (formatI op vd vs1 imm) = op := by
  apply BitVec.eq_of_toNat_eq
  rw [opcodeOf_toNat, formatI_toNat]
  omega

@[simp] theorem opcodeOf_formatX : opcodeOf (formatX op vd s imm) = op := by
  apply BitVec.eq_of_toNat_eq
  rw [opcodeOf_toNat, formatX_toNat]
  cases s <;> simp <;> omega

@[simp] theorem vdOf_formatR : vdOf (formatR op vd vs1 vs2 vd2) = vd := by
  apply Fin.ext
  simp only [vdOf, slotField_val, formatR_toNat]
  omega

@[simp] theorem vs1Of_formatR : vs1Of (formatR op vd vs1 vs2 vd2) = vs1 := by
  apply Fin.ext
  simp only [vs1Of, slotField_val, formatR_toNat]
  omega

@[simp] theorem vs2Of_formatR : vs2Of (formatR op vd vs1 vs2 vd2) = vs2 := by
  apply Fin.ext
  simp only [vs2Of, slotField_val, formatR_toNat]
  omega

@[simp] theorem vd2Of_formatR : vd2Of (formatR op vd vs1 vs2 vd2) = vd2 := by
  apply Fin.ext
  simp only [vd2Of, slotField_val, formatR_toNat]
  omega

@[simp] theorem vdOf_formatI : vdOf (formatI op vd vs1 imm) = vd := by
  apply Fin.ext
  simp only [vdOf, slotField_val, formatI_toNat]
  omega

@[simp] theorem vs1Of_formatI : vs1Of (formatI op vd vs1 imm) = vs1 := by
  apply Fin.ext
  simp only [vs1Of, slotField_val, formatI_toNat]
  omega

@[simp] theorem imm14Of_formatI : imm14Of (formatI op vd vs1 imm) = imm := by
  apply BitVec.eq_of_toNat_eq
  simp only [imm14Of, BitVec.extractLsb'_toNat, Nat.shiftRight_eq_div_pow, formatI_toNat]
  omega

/-- `SCALE`'s count is the low seven bits of its immediate (R73, R75). -/
@[simp] theorem scaleCount_formatI (n : BitVec 7) : (formatI op vd vs1 (0#7 ++ n)).extractLsb' 0 7 = n := by
  apply BitVec.eq_of_toNat_eq
  rw [BitVec.extractLsb'_toNat, Nat.shiftRight_eq_div_pow, formatI_toNat, toNat_append_eq]
  simp only [BitVec.toNat_ofNat]
  omega

@[simp] theorem vdOf_formatX : vdOf (formatX op vd s imm) = vd := by
  have hs := s.toNat_lt
  apply Fin.ext
  simp only [vdOf, slotField_val, formatX_toNat]
  omega

@[simp] theorem sign_formatX : (formatX op vd s imm).getLsbD 14 = s := by
  rw [formatX_getLsbD]
  rfl

@[simp] theorem imm14Of_formatX : imm14Of (formatX op vd s imm) = imm := by
  have hs := s.toNat_lt
  apply BitVec.eq_of_toNat_eq
  simp only [imm14Of, BitVec.extractLsb'_toNat, Nat.shiftRight_eq_div_pow, formatX_toNat]
  omega

end Sys2Proof
end

