-- ==== Sys2Proof/Laws/PerInstr.lean ====
section
/-!
SUPPORT. Per command: the word the encoder lays out has its row's `op` and passes its row's test (30_encoding.md rule R76).
-/

namespace Sys2Proof.Laws.RowMatch

open Sys2Proof

/-- The row of R76 of a command: `op`, `match`, `mask`. -/
def rowOf : Instr → BitVec 6 × CmdWord × CmdWord
  | .li _ _ => (0x01, 0x04000000, 0xFC7FC000)
  | .lxi _ _ _ => (0x02, 0x08000000, 0xFC7F8000)
  | .ldc _ => (0x03, 0x0C000000, 0xFC7FFFFF)
  | .ldx _ => (0x04, 0x10000000, 0xFC7FFFFF)
  | .stc _ => (0x05, 0x14000000, 0xFF8FFFFF)
  | .stx _ => (0x06, 0x18000000, 0xFF8FFFFF)
  | .mov _ _ => (0x07, 0x1C000000, 0xFC0FFFFF)
  | .rdf => (0x08, 0x20000000, 0xFFFFFFFF)
  | .add _ _ _ => (0x10, 0x40000000, 0xFC01FFFF)
  | .sub _ _ _ => (0x11, 0x44000000, 0xFC01FFFF)
  | .mul _ _ _ => (0x12, 0x48000000, 0xFC01FFFF)
  | .divmod _ _ _ _ => (0x13, 0x4C000000, 0xFC003FFF)
  | .cmp _ _ => (0x14, 0x50000000, 0xFF81FFFF)
  | .scale _ _ _ => (0x15, 0x54000000, 0xFC0FFF80)
  | .digits _ _ => (0x16, 0x58000000, 0xFC0FFFFF)
  | .round _ _ => (0x18, 0x60000000, 0xFC0FFFFF)

/-- The encoded command carries its row's opcode and satisfies `(w AND mask) = match` (R76). -/
def Statement (i : Instr) : Prop :=
  opcodeOf (encode i) = (rowOf i).1 ∧ encode i &&& (rowOf i).2.2 = (rowOf i).2.1

theorem li (vd : SlotIx) (imm : BitVec 14) : Statement (.li vd imm) := by
  refine ⟨by simp [encode, rowOf], BitVec.eq_of_getLsbD_eq fun i hi => ?_⟩
  simp only [encode, rowOf, BitVec.getLsbD_and, formatI_getLsbD]
  interval_cases i <;> simp

theorem lxi (vd : SlotIx) (neg : Bool) (simm : BitVec 14) : Statement (.lxi vd neg simm) := by
  refine ⟨by simp [encode, rowOf], BitVec.eq_of_getLsbD_eq fun i hi => ?_⟩
  simp only [encode, rowOf, BitVec.getLsbD_and, formatX_getLsbD]
  interval_cases i <;> simp

theorem ldc (vd : SlotIx) : Statement (.ldc vd) := by
  refine ⟨by simp [encode, rowOf], BitVec.eq_of_getLsbD_eq fun i hi => ?_⟩
  simp only [encode, rowOf, BitVec.getLsbD_and, formatR_getLsbD]
  interval_cases i <;> simp

theorem ldx (vd : SlotIx) : Statement (.ldx vd) := by
  refine ⟨by simp [encode, rowOf], BitVec.eq_of_getLsbD_eq fun i hi => ?_⟩
  simp only [encode, rowOf, BitVec.getLsbD_and, formatR_getLsbD]
  interval_cases i <;> simp

theorem stc (vs : SlotIx) : Statement (.stc vs) := by
  refine ⟨by simp [encode, rowOf], BitVec.eq_of_getLsbD_eq fun i hi => ?_⟩
  simp only [encode, rowOf, BitVec.getLsbD_and, formatR_getLsbD]
  interval_cases i <;> simp

theorem stx (vs : SlotIx) : Statement (.stx vs) := by
  refine ⟨by simp [encode, rowOf], BitVec.eq_of_getLsbD_eq fun i hi => ?_⟩
  simp only [encode, rowOf, BitVec.getLsbD_and, formatR_getLsbD]
  interval_cases i <;> simp

theorem mov (vd : SlotIx) (vs : SlotIx) : Statement (.mov vd vs) := by
  refine ⟨by simp [encode, rowOf], BitVec.eq_of_getLsbD_eq fun i hi => ?_⟩
  simp only [encode, rowOf, BitVec.getLsbD_and, formatR_getLsbD]
  interval_cases i <;> simp

theorem rdf : Statement .rdf := by
  unfold Statement
  decide

theorem add (vd : SlotIx) (va : SlotIx) (vb : SlotIx) : Statement (.add vd va vb) := by
  refine ⟨by simp [encode, rowOf], BitVec.eq_of_getLsbD_eq fun i hi => ?_⟩
  simp only [encode, rowOf, BitVec.getLsbD_and, formatR_getLsbD]
  interval_cases i <;> simp

theorem sub (vd : SlotIx) (va : SlotIx) (vb : SlotIx) : Statement (.sub vd va vb) := by
  refine ⟨by simp [encode, rowOf], BitVec.eq_of_getLsbD_eq fun i hi => ?_⟩
  simp only [encode, rowOf, BitVec.getLsbD_and, formatR_getLsbD]
  interval_cases i <;> simp

theorem mul (vd : SlotIx) (va : SlotIx) (vb : SlotIx) : Statement (.mul vd va vb) := by
  refine ⟨by simp [encode, rowOf], BitVec.eq_of_getLsbD_eq fun i hi => ?_⟩
  simp only [encode, rowOf, BitVec.getLsbD_and, formatR_getLsbD]
  interval_cases i <;> simp

theorem divmod (vq : SlotIx) (vr : SlotIx) (va : SlotIx) (vb : SlotIx) : Statement (.divmod vq vr va vb) := by
  refine ⟨by simp [encode, rowOf], BitVec.eq_of_getLsbD_eq fun i hi => ?_⟩
  simp only [encode, rowOf, BitVec.getLsbD_and, formatR_getLsbD]
  interval_cases i <;> simp

theorem cmp (va : SlotIx) (vb : SlotIx) : Statement (.cmp va vb) := by
  refine ⟨by simp [encode, rowOf], BitVec.eq_of_getLsbD_eq fun i hi => ?_⟩
  simp only [encode, rowOf, BitVec.getLsbD_and, formatR_getLsbD]
  interval_cases i <;> simp

theorem scale (vd : SlotIx) (va : SlotIx) (n : BitVec 7) : Statement (.scale vd va n) := by
  refine ⟨by simp [encode, rowOf], BitVec.eq_of_getLsbD_eq fun i hi => ?_⟩
  simp only [encode, rowOf, BitVec.getLsbD_and, formatI_getLsbD, BitVec.getLsbD_append]
  interval_cases i <;> simp

theorem digits (vd : SlotIx) (va : SlotIx) : Statement (.digits vd va) := by
  refine ⟨by simp [encode, rowOf], BitVec.eq_of_getLsbD_eq fun i hi => ?_⟩
  simp only [encode, rowOf, BitVec.getLsbD_and, formatR_getLsbD]
  interval_cases i <;> simp

theorem round (vd : SlotIx) (va : SlotIx) : Statement (.round vd va) := by
  refine ⟨by simp [encode, rowOf], BitVec.eq_of_getLsbD_eq fun i hi => ?_⟩
  simp only [encode, rowOf, BitVec.getLsbD_and, formatR_getLsbD]
  interval_cases i <;> simp

end Sys2Proof.Laws.RowMatch
end

