-- ==== Sys2Proof/Laws/Decoding.lean ====
section
/-!
SUPPORT. What a successful decode says of the word, and the row test it passed.
-/

namespace Sys2Proof

open Laws.RowMatch

theorem matchRow_eq_ok {w mask pat : CmdWord} {i j : Instr} (h : matchRow w mask pat i = .ok j) :
    w &&& mask = pat ∧ i = j := by
  unfold matchRow at h
  split at h
  · exact ⟨‹_›, by simpa using h⟩
  · cases h

theorem requireDistinct_eq_ok {vq vr : SlotIx} {i j : Instr} (h : requireDistinct vq vr i = .ok j) :
    vq ≠ vr ∧ i = j := by
  unfold requireDistinct at h
  split at h
  · cases h
  · exact ⟨‹_›, by simpa using h⟩

/-- The `DIVMOD` row (R78 (b) and (c)) as one condition. -/
theorem divmodRow_eq_ok {w : CmdWord} {vq vr : SlotIx} {i j : Instr}
    (h : (do let k ← matchRow w 0xFC003FFF 0x4C000000 i; requireDistinct vq vr k) = Except.ok j) :
    w &&& 0xFC003FFF = 0x4C000000 ∧ vq ≠ vr ∧ i = j := by
  cases hm : matchRow w 0xFC003FFF 0x4C000000 i with
  | error e => rw [hm] at h; cases h
  | ok k =>
    rw [hm] at h
    obtain ⟨h1, rfl⟩ := matchRow_eq_ok hm
    obtain ⟨h2, h3⟩ := requireDistinct_eq_ok h
    exact ⟨h1, h2, h3⟩

/-- A word that decodes has its command's row: the listed opcode, the row's test passed, and the destinations of `DIVMOD`
different. -/
theorem decode_sound {w : CmdWord} {i : Instr} (h : decode w = .ok i) :
    i.wellFormed = true ∧ opcodeOf w = (rowOf i).1 ∧ w &&& (rowOf i).2.2 = (rowOf i).2.1 := by
  unfold decode at h
  split at h
  case h_12 hop =>
    obtain ⟨h1, h2, rfl⟩ := divmodRow_eq_ok h
    exact ⟨by simpa [Instr.wellFormed] using h2, BitVec.eq_of_toNat_eq hop, h1⟩
  case h_17 => cases h
  all_goals
    rename_i hop
    obtain ⟨h1, rfl⟩ := matchRow_eq_ok h
    exact ⟨rfl, BitVec.eq_of_toNat_eq hop, h1⟩

end Sys2Proof
end

