-- ==== Sys2Proof/Laws/Operands.lean ====
section
/-!
SUPPORT. The layouts bit by bit (the auxiliary word, `FSR`), and what the last two stages of `ROUND` give, case by case.
-/

namespace Sys2Proof.Machine

open Sys2Proof

/-- Every bit of `X` (R25). -/
theorem auxWord_getLsbD (v : Slot) (i : Nat) :
    (auxWord v).getLsbD i
      = if i < 32 then v.e.getLsbD i else if i < 33 then v.s else (tagCode v.t).getLsbD (i - 33) := by
  change (tagCode v.t ++ BitVec.ofBool v.s ++ v.e : BitVec (2 + 1 + 32)).getLsbD i = _
  simp only [BitVec.getLsbD_append]
  split_ifs with h1 h2 h3 <;> first | rfl | omega | skip
  obtain rfl : i = 32 := by omega
  simp

/-- Every bit of `FSR` (R29). -/
theorem fsrBits_getLsbD (f : Fsr) (i : Nat) :
    (fsrBits f).getLsbD i
      = if i < 1 then f.f else if i < 5 then (causeBits f.cause).getLsbD (i - 1) else f.fcmd.getLsbD (i - 5) := by
  change (f.fcmd ++ causeBits f.cause ++ BitVec.ofBool f.f : BitVec (32 + 4 + 1)).getLsbD i = _
  simp only [BitVec.getLsbD_append]
  split_ifs with h1 h2 h3 <;> first | rfl | omega | skip
  obtain rfl : i = 0 := by omega
  simp

/-- Stage 2 (R144). -/
theorem rangeStage_of_overflow (neg : Bool) (c : Nat) {e : Int} (h : 6111 < e) :
    rangeStage neg c e = ⟨⟨0, 0, neg, .infinity⟩, true, false, false⟩ := by
  simp only [rangeStage, Config.emax]
  rw [if_pos (by omega)]

/-- Stage 3 (R145), on what stage 1 leaves. -/
theorem rangeStage_of_deficit (neg : Bool) {c : Nat} {e : Int} (hc : c < 10 ^ 34) (h : e < -6176) :
    rangeStage neg c e
      = ⟨⟨BitVec.ofNat 256 (rhe c (-6176 - e).toNat), BitVec.ofInt 32 (-6176), neg, .finite⟩, false,
          decide (rhe c (-6176 - e).toNat = 0), true⟩ := by
  simp only [rangeStage, Config.emax, Config.emin, deficitShift_eq_rhe hc]
  rw [if_neg (by omega), if_pos (by omega)]

/-- Neither stage acts. -/
theorem rangeStage_of_inRange (neg : Bool) (c : Nat) {e : Int} (h1 : -6176 ≤ e) (h2 : e ≤ 6111) :
    rangeStage neg c e = ⟨⟨BitVec.ofNat 256 c, BitVec.ofInt 32 e, neg, .finite⟩, false, false, false⟩ := by
  simp only [rangeStage, Config.emax, Config.emin]
  rw [if_neg (by omega), if_neg (by omega)]

end Sys2Proof.Machine
end

