-- ==== Sys2Proof/Laws/State.lean ====
section
/-!
SUPPORT. The small lemmas of State: one per field per update, so that no later proof unfolds a record update, and what a
slot reads after each write.
-/

namespace Sys2Proof.Machine

open Sys2Proof

/-! ### setSlot -/

@[simp] theorem State.setSlot_slots (s : State) (i : SlotIx) (v : Slot) : (s.setSlot i v).slots = s.slots.set i v := rfl

@[simp] theorem State.setSlot_flags (s : State) (i : SlotIx) (v : Slot) : (s.setSlot i v).flags = s.flags := rfl

@[simp] theorem State.setSlot_fsr (s : State) (i : SlotIx) (v : Slot) : (s.setSlot i v).fsr = s.fsr := rfl

@[simp] theorem State.setSlot_phase (s : State) (i : SlotIx) (v : Slot) : (s.setSlot i v).phase = s.phase := rfl

@[simp] theorem State.setSlot_rsp (s : State) (i : SlotIx) (v : Slot) : (s.setSlot i v).rsp = s.rsp := rfl

@[simp] theorem State.setSlot_cmd (s : State) (i : SlotIx) (v : Slot) : (s.setSlot i v).cmd = s.cmd := rfl

@[simp] theorem State.setSlot_wdata (s : State) (i : SlotIx) (v : Slot) : (s.setSlot i v).wdata = s.wdata := rfl

@[simp] theorem State.setSlot_commands (s : State) (i : SlotIx) (v : Slot) : (s.setSlot i v).commands = s.commands := rfl

@[simp] theorem State.setSlot_pc (s : State) (i : SlotIx) (v : Slot) : (s.setSlot i v).pc = s.pc := rfl

@[simp] theorem State.setSlot_rst (s : State) (i : SlotIx) (v : Slot) : (s.setSlot i v).rst = s.rst := rfl

/-! ### setC -/

@[simp] theorem State.setC_flags (s : State) (i : SlotIx) (v : Coeff) : (s.setC i v).flags = s.flags := rfl

@[simp] theorem State.setC_fsr (s : State) (i : SlotIx) (v : Coeff) : (s.setC i v).fsr = s.fsr := rfl

@[simp] theorem State.setC_phase (s : State) (i : SlotIx) (v : Coeff) : (s.setC i v).phase = s.phase := rfl

@[simp] theorem State.setC_rsp (s : State) (i : SlotIx) (v : Coeff) : (s.setC i v).rsp = s.rsp := rfl

@[simp] theorem State.setC_cmd (s : State) (i : SlotIx) (v : Coeff) : (s.setC i v).cmd = s.cmd := rfl

@[simp] theorem State.setC_wdata (s : State) (i : SlotIx) (v : Coeff) : (s.setC i v).wdata = s.wdata := rfl

@[simp] theorem State.setC_commands (s : State) (i : SlotIx) (v : Coeff) : (s.setC i v).commands = s.commands := rfl

@[simp] theorem State.setC_pc (s : State) (i : SlotIx) (v : Coeff) : (s.setC i v).pc = s.pc := rfl

@[simp] theorem State.setC_rst (s : State) (i : SlotIx) (v : Coeff) : (s.setC i v).rst = s.rst := rfl

/-! ### setAux -/

@[simp] theorem State.setAux_flags (s : State) (i : SlotIx) (e : Expo) (n : Bool) (t : Tag) : (s.setAux i e n t).flags = s.flags := rfl

@[simp] theorem State.setAux_fsr (s : State) (i : SlotIx) (e : Expo) (n : Bool) (t : Tag) : (s.setAux i e n t).fsr = s.fsr := rfl

@[simp] theorem State.setAux_phase (s : State) (i : SlotIx) (e : Expo) (n : Bool) (t : Tag) : (s.setAux i e n t).phase = s.phase := rfl

@[simp] theorem State.setAux_rsp (s : State) (i : SlotIx) (e : Expo) (n : Bool) (t : Tag) : (s.setAux i e n t).rsp = s.rsp := rfl

@[simp] theorem State.setAux_cmd (s : State) (i : SlotIx) (e : Expo) (n : Bool) (t : Tag) : (s.setAux i e n t).cmd = s.cmd := rfl

@[simp] theorem State.setAux_wdata (s : State) (i : SlotIx) (e : Expo) (n : Bool) (t : Tag) : (s.setAux i e n t).wdata = s.wdata := rfl

@[simp] theorem State.setAux_commands (s : State) (i : SlotIx) (e : Expo) (n : Bool) (t : Tag) : (s.setAux i e n t).commands = s.commands := rfl

@[simp] theorem State.setAux_pc (s : State) (i : SlotIx) (e : Expo) (n : Bool) (t : Tag) : (s.setAux i e n t).pc = s.pc := rfl

@[simp] theorem State.setAux_rst (s : State) (i : SlotIx) (e : Expo) (n : Bool) (t : Tag) : (s.setAux i e n t).rst = s.rst := rfl

/-! ### setFlags -/

@[simp] theorem State.setFlags_slots (s : State) (f : Flags) : (s.setFlags f).slots = s.slots := rfl

@[simp] theorem State.setFlags_flags (s : State) (f : Flags) : (s.setFlags f).flags = f := rfl

@[simp] theorem State.setFlags_fsr (s : State) (f : Flags) : (s.setFlags f).fsr = s.fsr := rfl

@[simp] theorem State.setFlags_phase (s : State) (f : Flags) : (s.setFlags f).phase = s.phase := rfl

@[simp] theorem State.setFlags_rsp (s : State) (f : Flags) : (s.setFlags f).rsp = s.rsp := rfl

@[simp] theorem State.setFlags_cmd (s : State) (f : Flags) : (s.setFlags f).cmd = s.cmd := rfl

@[simp] theorem State.setFlags_wdata (s : State) (f : Flags) : (s.setFlags f).wdata = s.wdata := rfl

@[simp] theorem State.setFlags_commands (s : State) (f : Flags) : (s.setFlags f).commands = s.commands := rfl

@[simp] theorem State.setFlags_pc (s : State) (f : Flags) : (s.setFlags f).pc = s.pc := rfl

@[simp] theorem State.setFlags_rst (s : State) (f : Flags) : (s.setFlags f).rst = s.rst := rfl

/-! ### accept -/

@[simp] theorem accept_slots (s : State) (c : Command) (w : Nat) : (accept c w s).slots = s.slots := rfl

@[simp] theorem accept_flags (s : State) (c : Command) (w : Nat) : (accept c w s).flags = s.flags := rfl

@[simp] theorem accept_fsr (s : State) (c : Command) (w : Nat) : (accept c w s).fsr = s.fsr := rfl

@[simp] theorem accept_phase (s : State) (c : Command) (w : Nat) : (accept c w s).phase = .inFlight w := rfl

@[simp] theorem accept_rsp (s : State) (c : Command) (w : Nat) : (accept c w s).rsp = none := rfl

@[simp] theorem accept_cmd (s : State) (c : Command) (w : Nat) : (accept c w s).cmd = c.word := rfl

@[simp] theorem accept_wdata (s : State) (c : Command) (w : Nat) : (accept c w s).wdata = c.wdata := rfl

@[simp] theorem accept_commands (s : State) (c : Command) (w : Nat) : (accept c w s).commands = s.commands := rfl

@[simp] theorem accept_pc (s : State) (c : Command) (w : Nat) : (accept c w s).pc = s.pc := rfl

@[simp] theorem accept_rst (s : State) (c : Command) (w : Nat) : (accept c w s).rst = s.rst := rfl

/-! ### hold -/

@[simp] theorem hold_slots (s : State) : (hold s).slots = s.slots := rfl

@[simp] theorem hold_flags (s : State) : (hold s).flags = s.flags := rfl

@[simp] theorem hold_fsr (s : State) : (hold s).fsr = s.fsr := rfl

@[simp] theorem hold_phase (s : State) : (hold s).phase = s.phase := rfl

@[simp] theorem hold_rsp (s : State) : (hold s).rsp = none := rfl

@[simp] theorem hold_cmd (s : State) : (hold s).cmd = s.cmd := rfl

@[simp] theorem hold_wdata (s : State) : (hold s).wdata = s.wdata := rfl

@[simp] theorem hold_commands (s : State) : (hold s).commands = s.commands := rfl

@[simp] theorem hold_pc (s : State) : (hold s).pc = s.pc := rfl

@[simp] theorem hold_rst (s : State) : (hold s).rst = s.rst := rfl

/-! ### enterReset -/

@[simp] theorem enterReset_slots (s : State) (v : Vector Slot 8) : (enterReset v s).slots = v := rfl

@[simp] theorem enterReset_flags (s : State) (v : Vector Slot 8) : (enterReset v s).flags = Flags.clear := rfl

@[simp] theorem enterReset_fsr (s : State) (v : Vector Slot 8) : (enterReset v s).fsr = Fsr.clear := rfl

@[simp] theorem enterReset_phase (s : State) (v : Vector Slot 8) : (enterReset v s).phase = .inReset := rfl

@[simp] theorem enterReset_rsp (s : State) (v : Vector Slot 8) : (enterReset v s).rsp = none := rfl

@[simp] theorem enterReset_cmd (s : State) (v : Vector Slot 8) : (enterReset v s).cmd = 0 := rfl

@[simp] theorem enterReset_wdata (s : State) (v : Vector Slot 8) : (enterReset v s).wdata = 0 := rfl

@[simp] theorem enterReset_commands (s : State) (v : Vector Slot 8) : (enterReset v s).commands = s.commands := rfl

@[simp] theorem enterReset_pc (s : State) (v : Vector Slot 8) : (enterReset v s).pc = s.pc := rfl

@[simp] theorem enterReset_rst (s : State) (v : Vector Slot 8) : (enterReset v s).rst = none := rfl

/-! ### leaveReset -/

@[simp] theorem leaveReset_slots (s : State) : (leaveReset s).slots = s.slots := rfl

@[simp] theorem leaveReset_flags (s : State) : (leaveReset s).flags = s.flags := rfl

@[simp] theorem leaveReset_fsr (s : State) : (leaveReset s).fsr = s.fsr := rfl

@[simp] theorem leaveReset_phase (s : State) : (leaveReset s).phase = .idle := rfl

@[simp] theorem leaveReset_rsp (s : State) : (leaveReset s).rsp = none := rfl

@[simp] theorem leaveReset_cmd (s : State) : (leaveReset s).cmd = s.cmd := rfl

@[simp] theorem leaveReset_wdata (s : State) : (leaveReset s).wdata = s.wdata := rfl

@[simp] theorem leaveReset_commands (s : State) : (leaveReset s).commands = s.commands := rfl

@[simp] theorem leaveReset_pc (s : State) : (leaveReset s).pc = s.pc := rfl

@[simp] theorem leaveReset_rst (s : State) : (leaveReset s).rst = s.rst := rfl

/-! ### resetWith -/

@[simp] theorem State.resetWith_slots (v : Vector Slot 8) : (State.resetWith v).slots = v := rfl

@[simp] theorem State.resetWith_flags (v : Vector Slot 8) : (State.resetWith v).flags = Flags.clear := rfl

@[simp] theorem State.resetWith_fsr (v : Vector Slot 8) : (State.resetWith v).fsr = Fsr.clear := rfl

@[simp] theorem State.resetWith_phase (v : Vector Slot 8) : (State.resetWith v).phase = .idle := rfl

@[simp] theorem State.resetWith_rsp (v : Vector Slot 8) : (State.resetWith v).rsp = none := rfl

@[simp] theorem State.resetWith_cmd (v : Vector Slot 8) : (State.resetWith v).cmd = 0 := rfl

@[simp] theorem State.resetWith_wdata (v : Vector Slot 8) : (State.resetWith v).wdata = 0 := rfl

@[simp] theorem State.resetWith_commands (v : Vector Slot 8) : (State.resetWith v).commands = [] := rfl

@[simp] theorem State.resetWith_pc (v : Vector Slot 8) : (State.resetWith v).pc = 0 := rfl

@[simp] theorem State.resetWith_rst (v : Vector Slot 8) : (State.resetWith v).rst = none := rfl

/-! ### What a slot reads after a write -/

/-- Two states with the same slots read the same slot. -/
theorem State.slot_congr {s t : State} (h : t.slots = s.slots) (i : SlotIx) : t.slot i = s.slot i := by
  simp [State.slot, h]

theorem State.slot_setSlot (s : State) (i j : SlotIx) (v : Slot) :
    (s.setSlot i v).slot j = if j = i then v else s.slot j := by
  simp only [State.slot, State.setSlot, Fin.getElem_fin, Vector.getElem_set, Fin.ext_iff, eq_comm]

@[simp] theorem State.slot_setSlot_self (s : State) (i : SlotIx) (v : Slot) : (s.setSlot i v).slot i = v := by
  simp [State.slot_setSlot]

@[simp] theorem State.slot_setSlot_of_ne (s : State) {i j : SlotIx} (h : j ≠ i) (v : Slot) :
    (s.setSlot i v).slot j = s.slot j := by
  simp [State.slot_setSlot, h]

theorem State.slot_setC (s : State) (i j : SlotIx) (v : Coeff) :
    (s.setC i v).slot j = if j = i then { s.slot i with c := v } else s.slot j :=
  State.slot_setSlot s i j _

@[simp] theorem State.slot_setC_self (s : State) (i : SlotIx) (v : Coeff) :
    (s.setC i v).slot i = { s.slot i with c := v } := by
  simp [State.slot_setC]

@[simp] theorem State.slot_setC_of_ne (s : State) {i j : SlotIx} (h : j ≠ i) (v : Coeff) :
    (s.setC i v).slot j = s.slot j := by
  simp [State.slot_setC, h]

theorem State.slot_setAux (s : State) (i j : SlotIx) (e : Expo) (n : Bool) (t : Tag) :
    (s.setAux i e n t).slot j = if j = i then { c := (s.slot i).c, e := e, s := n, t := t } else s.slot j :=
  State.slot_setSlot s i j _

@[simp] theorem State.slot_setFlags (s : State) (f : Flags) (j : SlotIx) : (s.setFlags f).slot j = s.slot j := rfl

@[simp] theorem slot_accept (s : State) (c : Command) (w : Nat) (j : SlotIx) : (accept c w s).slot j = s.slot j := rfl

@[simp] theorem slot_hold (s : State) (j : SlotIx) : (hold s).slot j = s.slot j := rfl

/-- Equal slot by slot is equal slots. -/
theorem State.slots_ext {s t : State} (h : ∀ j, t.slot j = s.slot j) : t.slots = s.slots := by
  apply Vector.ext
  intro i hi
  exact h ⟨i, hi⟩

end Sys2Proof.Machine
end

