-- ==== Sys2Proof/Laws/Ops.lean ====
section
/-!
SUPPORT. What each shared operation can do, once: how a command ends, what an exact write gives, what a step and a clock edge can
be. Later proofs cite these and do not unfold the operations.
-/

namespace Sys2Proof.Machine

open Sys2Proof

/-! ### How a command ends -/

theorem respond_eq (rd : Coeff) (s : State) :
    respond rd s = .next { s with rsp := some rd, phase := .idle, pc := s.pc + 1 } := rfl

theorem raise_eq (k : Cause) (s : State) :
    raise k s = .next { s with fsr := ⟨true, some k, s.cmd⟩, rsp := none, phase := .idle } := rfl

/-- A command that ends with `respond` after writes that kept `FSR` and the host side has completed; slots and flags are those of
the writes. -/
theorem respond_completed {s u : State} (rd : Coeff) (hf : u.fsr = s.fsr) (hp : u.pc = s.pc) (hk : HostKept s u) :
    ∃ t, respond rd u = .next t ∧ Completed s t rd ∧ t.slots = u.slots ∧ t.flags = u.flags :=
  ⟨_, rfl, ⟨hf, rfl, rfl, by simp [hp], hk⟩, rfl, rfl⟩

/-- `raise` always enters the fault. -/
theorem raise_faultEntered (k : Cause) (s : State) : ∃ t, raise k s = .next t ∧ FaultEntered s t k :=
  ⟨_, rfl, rfl, rfl, rfl, rfl, rfl, rfl, rfl, rfl, rfl, rfl⟩

/-- What holding changes: the response ends, nothing else (R215). -/
theorem hold_unitHeld (s : State) : UnitHeld s (hold s) := ⟨rfl, rfl, rfl, rfl, rfl, rfl, rfl, rfl, rfl, rfl⟩

theorem hostKept_refl (s : State) : HostKept s s := ⟨rfl, rfl, rfl, rfl⟩

/-- The answer of a completed command whose writes made `u`, slot by slot. -/
theorem respond_spec {s u : State} (rd : Coeff) (hf : u.fsr = s.fsr) (hp : u.pc = s.pc) (hk : HostKept s u) :
    ∃ t, respond rd u = .next t ∧ Completed s t rd ∧ (∀ j, t.slot j = u.slot j) ∧ t.flags = u.flags ∧ t.slots = u.slots := by
  obtain ⟨t, h1, h2, h3, h4⟩ := respond_completed rd hf hp hk
  exact ⟨t, h1, h2, State.slot_congr h3, h4, h3⟩

theorem wroteC_setC {s t : State} {d : SlotIx} {v : Coeff} (h : ∀ j, t.slot j = (s.setC d v).slot j) :
    WroteC s t d v.toNat :=
  ⟨by simp [State.coeff, h], by simp [AuxKept, h], fun j hj => by simp [h, hj]⟩

theorem wroteAux_setAux {s t : State} {d : SlotIx} {e : Expo} {n : Bool} {g : Tag}
    (h : ∀ j, t.slot j = (s.setAux d e n g).slot j) : WroteAux s t d e.toInt n g := by
  refine ⟨?_, ?_, ?_, ?_, fun j hj => ?_⟩ <;> simp_all [State.expo, State.slot_setAux]

theorem tagCode_tagOfCode (b : BitVec 2) : tagCode (tagOfCode b) = b := by
  revert b
  decide

theorem tagOfCode_tagCode (g : Tag) : tagOfCode (tagCode g) = g := by
  cases g <;> rfl

/-- An exact result that fits is written to `C[vd]`, and the given flags beside it. -/
theorem writeExact_of_lt {vd : SlotIx} {v : Nat} {f : Flags} {s : State} (h : v < 2 ^ 256) :
    ∃ t, writeExact vd v f s = .next t ∧ Completed s t 0 ∧ WroteC s t vd v ∧ t.flags = f := by
  have hn : ¬2 ^ 256 ≤ v := by omega
  obtain ⟨t, ht, hc, hs, hf⟩ :=
    respond_completed (s := s) (u := (s.setC vd (BitVec.ofNat 256 v)).setFlags f) 0 rfl rfl ⟨rfl, rfl, rfl, rfl⟩
  have hslot : ∀ j, t.slot j = (s.setC vd (BitVec.ofNat 256 v)).slot j := State.slot_congr hs
  refine ⟨t, by simpa only [writeExact, if_neg hn] using ht, hc, ⟨?_, ?_, fun j hj => ?_⟩, hf⟩
  · simp only [State.coeff, hslot, State.slot_setC_self, BitVec.toNat_ofNat, Nat.mod_eq_of_lt h]
  · simp [AuxKept, hslot]
  · simp [hslot, hj]

/-- An exact result that does not fit raises `CapacityOverflow` and nothing is written. -/
theorem writeExact_of_le {vd : SlotIx} {v : Nat} {f : Flags} {s : State} (h : 2 ^ 256 ≤ v) :
    ∃ t, writeExact vd v f s = .next t ∧ FaultEntered s t .capacityOverflow := by
  simp only [writeExact, if_pos h]
  exact raise_faultEntered _ s

/-- Every meaning ends in one of two ways (R8). -/
theorem exec_cases (i : Instr) (s : State) :
    (∃ t rd, exec i s = .next t ∧ Completed s t rd) ∨ ∃ t k, exec i s = .next t ∧ FaultEntered s t k := by
  have ok : ∀ (u : State) (rd : Coeff), u.fsr = s.fsr → u.pc = s.pc → HostKept s u →
      (∃ t rd', respond rd u = .next t ∧ Completed s t rd') ∨ ∃ t k, respond rd u = .next t ∧ FaultEntered s t k :=
    fun u rd hf hp hk => .inl (let ⟨t, h, hc, _⟩ := respond_completed rd hf hp hk; ⟨t, rd, h, hc⟩)
  have bad : ∀ k, (∃ t rd, raise k s = .next t ∧ Completed s t rd) ∨ ∃ t k', raise k s = .next t ∧ FaultEntered s t k' :=
    fun k => .inr (let ⟨t, h, hf⟩ := raise_faultEntered k s; ⟨t, k, h, hf⟩)
  have exact' : ∀ (vd : SlotIx) (v : Nat) (f : Flags),
      (∃ t rd, writeExact vd v f s = .next t ∧ Completed s t rd)
        ∨ ∃ t k, writeExact vd v f s = .next t ∧ FaultEntered s t k := by
    intro vd v f
    by_cases h : v < 2 ^ 256
    · obtain ⟨t, h1, h2, _⟩ := writeExact_of_lt (vd := vd) (f := f) (s := s) h
      exact .inl ⟨t, 0, h1, h2⟩
    · obtain ⟨t, h1, h2⟩ := writeExact_of_le (vd := vd) (f := f) (s := s) (Nat.le_of_not_lt h)
      exact .inr ⟨t, _, h1, h2⟩
  cases i with
  | add => exact exact' _ _ _
  | mul => exact exact' _ _ _
  | scale => exact exact' _ _ _
  | sub d a b =>
    simp only [exec, execSub]
    split
    · exact bad _
    · exact ok _ _ rfl rfl ⟨rfl, rfl, rfl, rfl⟩
  | divmod q r a b =>
    simp only [exec, execDivmod]
    split_ifs
    · exact bad _
    · exact bad _
    · exact ok _ _ rfl rfl ⟨rfl, rfl, rfl, rfl⟩
  | li | lxi | ldc | ldx | stc | stx | mov | rdf | cmp | digits | round =>
    exact ok _ _ rfl rfl ⟨rfl, rfl, rfl, rfl⟩

/-- A meaning looks at neither the phase nor the response port. -/
theorem exec_port (i : Instr) (s : State) (p : Phase) (r : Option Coeff) :
    exec i { s with phase := p, rsp := r } = exec i s := by
  cases i <;> rfl

/-! ### The completion of a sampled command -/

theorem completeCommand_of_ok {s : State} {i : Instr} (h : decode s.cmd = .ok i) : completeCommand s = exec i s := by
  simp [completeCommand, h]

theorem completeCommand_of_illegal {s : State} (h : ∀ i, decode s.cmd ≠ .ok i) :
    completeCommand s = raise .illegalCommand s := by
  unfold completeCommand
  split
  · rename_i i hi
    exact absurd hi (h i)
  · rfl

theorem completeCommand_port (s : State) (p : Phase) (r : Option Coeff) :
    completeCommand { s with phase := p, rsp := r } = completeCommand s := by
  unfold completeCommand
  simp only
  split
  · exact exec_port _ s p r
  · rfl

/-- The command in flight completes or faults; nothing else can happen (R8). -/
theorem completeCommand_cases (s : State) :
    (∃ t rd, completeCommand s = .next t ∧ Completed s t rd) ∨ ∃ t k, completeCommand s = .next t ∧ FaultEntered s t k := by
  unfold completeCommand
  split
  · exact exec_cases _ s
  · exact .inr (let ⟨t, h, hf⟩ := raise_faultEntered .illegalCommand s; ⟨t, _, h, hf⟩)

/-! ### What a step and a clock edge can be -/

/-- An idle unit that is neither faulted nor being reset accepts and completes what the host presents. -/
theorem step_presented {s : State} {c : Command} (hr : s.rst = none) (hf : s.fsr.f = false) (hp : s.phase = .idle)
    (hc : s.commands[s.pc]? = some c) : step s = completeCommand (accept c 0 s) := by
  have hc' : s.presented = some c := hc
  simp [step, hr, hf, hp, hc']

theorem step_inFlight {s : State} {n : Nat} (hr : s.rst = none) (hf : s.fsr.f = false) (hp : s.phase = .inFlight n) :
    step s = completeCommand s := by
  simp [step, hr, hf, hp]

theorem step_faulted {s : State} (hr : s.rst = none) (hf : s.fsr.f = true) :
    step s = .fault (.stopped s.fsr.cause s.fsr.fcmd) := by
  simp [step, hr, hf]

theorem step_reset {s : State} {v : Vector Slot 8} (hr : s.rst = some v) : step s = .next (enterReset v s) := by
  simp [step, hr]

theorem step_inReset {s : State} (hr : s.rst = none) (hf : s.fsr.f = false) (hp : s.phase = .inReset) :
    step s = .next (leaveReset s) := by
  simp [step, hr, hf, hp]

/-- An idle unit with nothing presented (R215). -/
theorem step_idle {s : State} (hr : s.rst = none) (hf : s.fsr.f = false) (hp : s.phase = .idle)
    (hc : s.commands[s.pc]? = none) : step s = .next (hold s) := by
  have hc' : s.presented = none := hc
  simp [step, hr, hf, hp, hc']

/-- Everything a step that answers a next state can have been. -/
theorem step_cases {s t : State} (h : step s = .next t) :
    (∃ v, s.rst = some v ∧ t = enterReset v s)
    ∨ (s.rst = none ∧ s.fsr.f = false ∧ s.phase = .inReset ∧ t = leaveReset s)
    ∨ (s.rst = none ∧ s.fsr.f = false ∧ (∃ n, s.phase = .inFlight n) ∧ completeCommand s = .next t)
    ∨ (∃ c, s.rst = none ∧ s.fsr.f = false ∧ s.phase = .idle ∧ s.commands[s.pc]? = some c
        ∧ completeCommand (accept c 0 s) = .next t)
    ∨ (s.rst = none ∧ s.fsr.f = false ∧ s.phase = .idle ∧ s.commands[s.pc]? = none ∧ t = hold s) := by
  unfold step State.presented at h
  split at h
  · rename_i v hv
    exact .inl ⟨v, hv, by simpa using h.symm⟩
  · rename_i hr
    split at h
    · cases h
    · rename_i hf
      have hf' : s.fsr.f = false := by simpa using hf
      split at h
      · exact .inr (.inl ⟨hr, hf', ‹_›, by simpa using h.symm⟩)
      · exact .inr (.inr (.inl ⟨hr, hf', ⟨_, ‹_›⟩, h⟩))
      · split at h
        · exact .inr (.inr (.inr (.inl ⟨_, hr, hf', ‹_›, ‹_›, h⟩)))
        · exact .inr (.inr (.inr (.inr ⟨hr, hf', ‹_›, ‹_›, by simpa using h.symm⟩)))

/-- Everything a clock edge that answers a next state can have been. -/
theorem clockEdge_cases {p : PortIn} {l : Nat} {s t : State} (h : clockEdge p l s = .next t) :
    (∃ v, p.rst = some v ∧ t = enterReset v s)
    ∨ (p.rst = none ∧ s.phase = .inReset ∧ t = leaveReset s)
    ∨ (∃ n, p.rst = none ∧ s.phase = .inFlight (n + 1) ∧ t = { hold s with phase := .inFlight n })
    ∨ (p.rst = none ∧ s.phase = .inFlight 0 ∧ completeCommand s = .next t)
    ∨ (p.rst = none ∧ s.phase = .idle ∧ p.cmdValid = true ∧ s.cmdReady = true
        ∧ t = accept ⟨p.cmd, p.wdata⟩ (l % Config.latMax) s)
    ∨ (p.rst = none ∧ s.phase = .idle ∧ ¬(p.cmdValid = true ∧ s.cmdReady = true) ∧ t = hold s) := by
  unfold clockEdge at h
  split at h
  · exact .inl ⟨_, ‹_›, by simpa using h.symm⟩
  · rename_i hr
    split at h
    · exact .inr (.inl ⟨hr, ‹_›, by simpa using h.symm⟩)
    · exact .inr (.inr (.inl ⟨_, hr, ‹_›, by simpa using h.symm⟩))
    · exact .inr (.inr (.inr (.inl ⟨hr, ‹_›, h⟩)))
    · rename_i hp
      split at h
      · rename_i hc
        simp only [Bool.and_eq_true] at hc
        exact .inr (.inr (.inr (.inr (.inl ⟨hr, hp, hc.1, hc.2, by simpa using h.symm⟩))))
      · rename_i hc
        simp only [Bool.and_eq_true] at hc
        exact .inr (.inr (.inr (.inr (.inr ⟨hr, hp, hc, by simpa using h.symm⟩))))

/-- `cmd_ready` in terms of the state (R51). -/
theorem cmdReady_iff (s : State) : s.cmdReady = true ↔ s.phase = .idle ∧ s.fsr.f = false := by
  simp [State.cmdReady]

theorem clockEdge_reset {p : PortIn} {v : Vector Slot 8} (l : Nat) (s : State) (h : p.rst = some v) :
    clockEdge p l s = .next (enterReset v s) := by
  simp [clockEdge, h]

theorem clockEdge_accept {p : PortIn} (l : Nat) {s : State} (hr : p.rst = none) (hv : p.cmdValid = true)
    (hc : s.cmdReady = true) : clockEdge p l s = .next (accept ⟨p.cmd, p.wdata⟩ (l % Config.latMax) s) := by
  simp [clockEdge, hr, hv, hc, ((cmdReady_iff s).mp hc).1]

theorem clockEdge_wait {p : PortIn} (l : Nat) {s : State} {n : Nat} (hr : p.rst = none) (hp : s.phase = .inFlight (n + 1)) :
    clockEdge p l s = .next { hold s with phase := .inFlight n } := by
  simp [clockEdge, hr, hp]

theorem clockEdge_complete {p : PortIn} (l : Nat) {s : State} (hr : p.rst = none) (hp : s.phase = .inFlight 0) :
    clockEdge p l s = completeCommand s := by
  simp [clockEdge, hr, hp]

theorem clockEdge_idle {p : PortIn} (l : Nat) {s : State} (hr : p.rst = none) (hp : s.phase = .idle)
    (h : ¬(p.cmdValid = true ∧ s.cmdReady = true)) : clockEdge p l s = .next (hold s) := by
  simp only [clockEdge, hr, hp, Bool.and_eq_true, if_neg h]

end Sys2Proof.Machine
end

