-- ==== Sys2Proof/Tests/Slice0.lean ====
section
/-!
SUPPORT. The model's own tests: the well-formedness smoke test, decode tests of words written out from the encoding tables, one-step
tests with results taken from 95_test_vectors.md, and a witness for the hypotheses of every statement.
-/

namespace Sys2Proof.Tests

open Sys2Proof Sys2Proof.Machine

/-! ### Small states -/

/-- Every slot holds something nonzero in every field; flags and `FSR` clear. -/
def filled : State := State.resetWith (Vector.replicate 8 ⟨7, 3, true, .quietNaN⟩)

/-- `C[1] = a`, `C[2] = b`: the inputs of the vectors of 95_test_vectors.md section 2. -/
def pair (a b : Nat) : State := (filled.setC 1 (BitVec.ofNat 256 a)).setC 2 (BitVec.ofNat 256 b)

/-- V1 holds the triple (sign, coefficient, exponent), under a tag that is not Finite. -/
def triple (neg : Bool) (c : Nat) (e : Int) : State :=
  (filled.setC 1 (BitVec.ofNat 256 c)).setAux 1 (BitVec.ofInt 32 e) neg .signalingNaN

/-- `filled` with the sampled ports as given. -/
def sampled (cmd : CmdWord) (wdata : Coeff) : State := { filled with cmd := cmd, wdata := wdata }

/-- `s` with the host about to present the word. -/
def presenting (w : CmdWord) (s : State) : State := { s with commands := [⟨w, 0⟩], pc := 0 }

/-- A unit that has faulted: a `SUB` in the wrong order. -/
def faulted : State := { pair 5 10 with fsr := ⟨true, some .operandOrder, 0x45940000⟩ }

/-- The state a command that completed left. -/
def after (i : Instr) (s : State) : Option State :=
  match exec i s with
  | .next t => if t.rsp.isSome then some t else none
  | .fault _ => none
  | .refused _ => none

/-- The cause a command faulted with. -/
def causeAfter (i : Instr) (s : State) : Option Cause :=
  match exec i s with
  | .next t => if t.rsp.isSome then none else t.fsr.cause
  | .fault _ => none
  | .refused _ => none

def coeffAfter (i : Instr) (s : State) (d : SlotIx) : Option Nat := (after i s).map fun t => t.coeff d

def flagsAfter (i : Instr) (s : State) : Option Nat := (after i s).map fun t => (flagBits t.flags).toNat

def rdataAfter (i : Instr) (s : State) : Option Nat := (after i s).bind fun t => t.rsp.map BitVec.toNat

/-- `ROUND V3, V1` on a triple: tag, sign, exponent, coefficient of the result, and the flags. -/
def rounded (neg : Bool) (c : Nat) (e : Int) : Option (Tag × Bool × Int × Nat × Nat) :=
  (after (.round 3 1) (triple neg c e)).map fun t =>
    ((t.slot 3).t, (t.slot 3).s, t.expo 3, t.coeff 3, (flagBits t.flags).toNat)

/-! ### Well-formedness -/

theorem test_wellFormed_refuses_one_destination : (Instr.divmod 3 3 1 2).wellFormed = false := by decide

theorem test_wellFormed_accepts_two_destinations : (Instr.divmod 0 1 0 0).wellFormed = true := by decide

/-! ### Decoding: words of 95_test_vectors.md sections 4, 5 and 6, and R82's worked encoding -/

theorem test_decode_li : decode 0x07803FFF = .ok (.li 7 16383) := rfl
theorem test_decode_lxi : decode 0x0A0067DF = .ok (.lxi 4 true (BitVec.ofInt 14 (-6177))) := rfl
theorem test_decode_ldc : decode 0x0E800000 = .ok (.ldc 5) := rfl
theorem test_decode_ldx : decode 0x13000000 = .ok (.ldx 6) := rfl
theorem test_decode_stc : decode 0x14700000 = .ok (.stc 7) := rfl
theorem test_decode_stx : decode 0x18600000 = .ok (.stx 6) := rfl
theorem test_decode_mov : decode 0x1D100000 = .ok (.mov 2 1) := rfl
theorem test_decode_rdf : decode 0x20000000 = .ok .rdf := rfl
theorem test_decode_add : decode 0x424A0000 = .ok (.add 4 4 5) := rfl
theorem test_decode_sub : decode 0x47940000 = .ok (.sub 7 1 2) := rfl
theorem test_decode_mul : decode 0x4A060000 = .ok (.mul 4 0 3) := rfl
theorem test_decode_divmod : decode 0x4E314000 = .ok (.divmod 4 5 3 0) := rfl
theorem test_decode_cmp : decode 0x50220000 = .ok (.cmp 2 1) := rfl
theorem test_decode_scale : decode 0x5590007F = .ok (.scale 3 1 127) := rfl
theorem test_decode_digits : decode 0x59100000 = .ok (.digits 2 1) := rfl
theorem test_decode_round : decode 0x62C00000 = .ok (.round 5 4) := rfl

theorem test_encode_divmod : encode (.divmod 4 5 3 0) = 0x4E314000 := by decide
theorem test_encode_lxi : encode (.lxi 4 false 0x3FFF) = 0x0A003FFF := by decide
theorem test_encode_scale : encode (.scale 3 1 1) = 0x55900001 := by decide

theorem test_decode_all_zero : decode 0 = .error (.unassignedOpcode 0) := rfl
theorem test_decode_all_ones : decode 0xFFFFFFFF = .error (.unassignedOpcode 0x3F) := rfl
theorem test_decode_unassigned_0F : decode 0x3C000000 = .error (.unassignedOpcode 0x0F) := rfl
theorem test_decode_unassigned_17 : decode 0x5C000000 = .error (.unassignedOpcode 0x17) := rfl
theorem test_decode_unassigned_19 : decode 0x64000000 = .error (.unassignedOpcode 0x19) := rfl
theorem test_decode_li_bit14 : decode 0x04004000 = .error (.nonzeroReservedField 1) := rfl
theorem test_decode_lxi_bit15 : decode 0x0A00BFFF = .error (.nonzeroReservedField 2) := rfl
theorem test_decode_stc_vd : decode 0x14C00000 = .error (.nonzeroReservedField 5) := rfl
theorem test_decode_rdf_vd : decode 0x20800000 = .error (.nonzeroReservedField 8) := rfl
theorem test_decode_add_vd2 : decode 0x40944000 = .error (.nonzeroReservedField 0x10) := rfl
theorem test_decode_scale_bit7 : decode 0x55900080 = .error (.nonzeroReservedField 0x15) := rfl
theorem test_decode_round_vs2 : decode 0x62420000 = .error (.nonzeroReservedField 0x18) := rfl
theorem test_decode_divmod_same : decode 0x4D82C000 = .error (.sameDestination 3) := rfl

theorem test_table_word : decodeTableWord 32 0x40940000 = some (.add 1 1 2) := rfl

/-! ### One step each: 95_test_vectors.md sections 2 to 4 -/

theorem test_li : coeffAfter (.li 7 16383) filled 7 = some 16383 := by decide
theorem test_li_keeps_aux : (after (.li 7 16383) filled).map (fun t => (t.slot 7).e) = some 3 := by decide
theorem test_lxi : (after (.lxi 4 true 0x2000) filled).map (fun t => (t.expo 4, (t.slot 4).s, (t.slot 4).t, t.coeff 4))
    = some (-8192, true, .finite, 7) := by decide
theorem test_lxi_plus : (after (.lxi 2 false 0x17DF) filled).map (fun t => (t.expo 2, (t.slot 2).s)) = some (6111, false) := by
  decide
theorem test_ldc : coeffAfter (.ldc 0) (sampled 0 0x1ED09BEAD87C0378D8E63FFFFFFFF) 0 = some (10 ^ 34 - 1) := by decide
theorem test_ldc_top : coeffAfter (.ldc 5) (sampled 0 (BitVec.allOnes 256)) 5 = some (2 ^ 256 - 1) := by decide
theorem test_ldx : (after (.ldx 1) (sampled 0 0x1FFFFE7E0)).map (fun t => (t.expo 1, (t.slot 1).s, (t.slot 1).t, t.coeff 1))
    = some (-6176, true, .finite, 7) := by decide
theorem test_ldx_upper_ignored :
    (after (.ldx 6) (sampled 0 0x55E68000017DF)).map (fun t => (t.expo 6, (t.slot 6).s, (t.slot 6).t))
      = some (6111, false, .finite) := by decide
theorem test_stc : rdataAfter (.stc 1) (pair 25 0) = some 0x19 := by decide
theorem test_stc_top : rdataAfter (.stc 2) (pair 0 (2 ^ 256 - 1)) = some (2 ^ 256 - 1) := by decide
theorem test_stx : rdataAfter (.stx 2) (filled.setAux 2 5 true .signalingNaN) = some 0x700000005 := by decide
theorem test_stx_low : rdataAfter (.stx 2) (filled.setAux 2 0x80000000 false .quietNaN) = some 0x480000000 := by decide
theorem test_mov : (after (.mov 2 1) (triple true (10 ^ 34 - 2) 34)).map (fun t => (t.slot 2, t.slot 1))
    = some (⟨10 ^ 34 - 2, 34, true, .signalingNaN⟩, ⟨10 ^ 34 - 2, 34, true, .signalingNaN⟩) := by decide
theorem test_mov_self : (after (.mov 1 1) (pair 9 8)).map (fun t => t.slots) = some (pair 9 8).slots := by decide
theorem test_rdf : rdataAfter .rdf (filled.setFlags ⟨false, false, false, false, true, true⟩) = some 0x30 := by decide
theorem test_rdf_lt : rdataAfter .rdf (filled.setFlags ⟨true, false, true, false, false, false⟩) = some 5 := by decide

theorem test_add_carry : coeffAfter (.add 3 1 2) (pair (10 ^ 34 - 1) 1) 3 = some (10 ^ 34)
    ∧ flagsAfter (.add 3 1 2) (pair (10 ^ 34 - 1) 1) = some 1 := by decide
theorem test_add_capacity : causeAfter (.add 3 1 2) (pair (2 ^ 255) (2 ^ 255)) = some .capacityOverflow
    ∧ coeffAfter (.add 3 1 2) (pair (2 ^ 255 - 1) (2 ^ 255)) 3 = some (2 ^ 256 - 1) := by decide
theorem test_sub : coeffAfter (.sub 3 1 2) (pair (10 ^ 34) 1) 3 = some (10 ^ 34 - 1) := by decide
theorem test_sub_order : causeAfter (.sub 3 1 2) (pair (2 ^ 256 - 2) (2 ^ 256 - 1)) = some .operandOrder := by decide
theorem test_cmp_less : flagsAfter (.cmp 1 2) (pair 0 (2 ^ 256 - 1)) = some 4 := by decide
theorem test_cmp_equal : flagsAfter (.cmp 1 2) (pair 5 5) = some 2 := by decide
theorem test_mul : coeffAfter (.mul 3 1 2) (pair (10 ^ 34 - 1) (10 ^ 34 - 1)) 3
    = some 99999999999999999999999999999999980000000000000000000000000000000001 := by decide
theorem test_mul_capacity : causeAfter (.mul 3 1 2) (pair (2 ^ 128) (2 ^ 128)) = some .capacityOverflow
    ∧ (coeffAfter (.mul 3 1 2) (pair (2 ^ 128 - 1) (2 ^ 128 - 1)) 3).isSome = true := by decide
theorem test_divmod : coeffAfter (.divmod 1 2 1 2) (pair 53 7) 1 = some 7
    ∧ coeffAfter (.divmod 1 2 1 2) (pair 53 7) 2 = some 4 := by decide
theorem test_divmod_zero : causeAfter (.divmod 3 4 1 2) (pair 0 0) = some .divideByZero := by decide
theorem test_scale : coeffAfter (.scale 3 1 77) (pair 1 0) 3 = some (10 ^ 77)
    ∧ coeffAfter (.scale 3 1 127) (pair 0 0) 3 = some 0 := by decide
theorem test_scale_capacity : causeAfter (.scale 3 1 78) (pair 1 0) = some .capacityOverflow
    ∧ causeAfter (.scale 3 1 77) (pair 2 0) = some .capacityOverflow := by decide
theorem test_digits : coeffAfter (.digits 3 1) (pair (10 ^ 34) 0) 3 = some 35
    ∧ coeffAfter (.digits 3 1) (pair (10 ^ 34 - 1) 0) 3 = some 34 := by decide
theorem test_digits_ends : coeffAfter (.digits 3 1) (pair 0 0) 3 = some 1
    ∧ coeffAfter (.digits 3 1) (pair (2 ^ 256 - 1) 0) 3 = some 78 := by decide

/-- R145, last example: both stages round. -/
theorem test_round_twice : rounded false 10000000000000000000000000000000149 (-6178)
    = some (.finite, false, -6176, 100000000000000000000000000000002, 0x20) := by decide

/-- R144: the extra pass carries the exponent over the top; one exponent lower it does not (program P2). -/
theorem test_round_overflow : rounded false (10 ^ 35 - 1) 6110 = some (.infinity, false, 0, 0, 8)
    ∧ rounded false (10 ^ 35 - 1) 6109 = some (.finite, false, 6111, 10 ^ 33, 0) := by decide

/-- The digit-removal examples of R141. -/
theorem test_rhe : [rhe 25 1, rhe 35 1, rhe 15 1, rhe 5 1, rhe 6 1, rhe 149 2, rhe 150 2, rhe 250 2, rhe 251 2]
    = [2, 4, 2, 0, 1, 1, 2, 2, 3] := by decide

/-- The precision-stage examples of R143. -/
theorem test_precision : precisionStage (10 ^ 34 + 15) 0 = (10 ^ 33 + 2, 1) ∧ precisionStage (10 ^ 35 - 5) 0 = (10 ^ 33, 2)
    ∧ precisionStage (2 ^ 256 - 1) 0 = (1157920892373161954235709850086879, 44) := by decide

/-- The deficit shift of R145: the tie at `k = 34`, both sides of it, `k = 35`, and the ties at `k = 1`. -/
theorem test_deficit : [deficitShift (5 * 10 ^ 33) 34, deficitShift (5 * 10 ^ 33 + 1) 34, deficitShift (10 ^ 34 - 1) 35,
    deficitShift 15 1, deficitShift 25 1] = [0, 1, 0, 2, 2] := by decide

/-- R144: the exponent is compared as an integer, with no wrap, and a zero coefficient overflows too. -/
theorem test_range : (rangeStage false 1 2147483647).of = true ∧ (rangeStage false 0 6112).of = true
    ∧ (rangeStage true 7 (-2147483648)).uf = true := by decide

/-! ### Ports and words -/

/-- R172, the words of `10^34 − 1`. -/
theorem test_words : ofWords 0x378D8E63FFFFFFFF 0x0001ED09BEAD87C0 0 0 = BitVec.ofNat 256 (10 ^ 34 - 1) := by decide

/-- The three examples of R25. -/
theorem test_aux : auxWord ⟨0, BitVec.ofInt 32 (-1), false, .finite⟩ = 0x0FFFFFFFF
    ∧ auxWord ⟨0, BitVec.ofInt 32 (-6176), true, .finite⟩ = 0x1FFFFE7E0 ∧ auxWord ⟨0, 0, true, .infinity⟩ = 0x300000000 := by
  decide

/-- Program P4, pc 2: the pins after the fault. -/
theorem test_fault_pins : (match step (presenting 0x4D02C000 (filled.setC 1 0)) with
    | .next t => some (portOut t).cause
    | .fault _ => none
    | .refused _ => none) = some 2 := by decide

/-- An idle unit with nothing presented holds its state (R215). -/
theorem test_idle : step State.reset = .next State.reset := rfl

/-- The word placed by `withFetchWord` runs at the very next step. -/
theorem test_fetch : (match step (State.reset.withFetchWord 32 0x04000002) with
    | .next t => some (t.coeff 0, t.pc)
    | .fault _ => none
    | .refused _ => none) = some (2, 1) := by decide

/-! ### Assembler (R81 to R83) -/

theorem test_asm_divmod : readLine "DIVMOD V4, V5, V3, V0 ; exact".toList = some [.divmod 4 5 3 0] := by decide
/-- Log entry 18: the line is refused; its word, which 95_test_vectors.md section 2 gives, is illegal when presented. -/
theorem test_asm_divmod_same : readLine "DIVMOD V3, V3, V1, V2".toList = none
    ∧ decode 0x4D94C000 = .error (.sameDestination 3) := ⟨by decide, rfl⟩
theorem test_asm_lxi : readLine "LXI V4, +, -1".toList = some [.lxi 4 false 0x3FFF] := by decide
theorem test_asm_hex : readLine "LI V2, 0x3FFF".toList = some [.li 2 16383] := by decide
theorem test_asm_zero : readLine "ZERO V1, -".toList = some [.li 1 0, .lxi 1 true 0] := by decide
theorem test_asm_range : readLine "SCALE V1, V2, 128".toList = none := by decide
theorem test_asm_comment : readLine "  ; nothing".toList = some [] := by decide

/-! ### Witnesses: for every statement with hypotheses, a state and operands that meet them, at the ends of each clause -/

/-- A command in flight with two edges to wait. -/
def inFlight (w : CmdWord) (n : Nat) : State := { filled with cmd := w, phase := .inFlight n }

/-- An input with `rst` low and nothing presented. -/
def quiet : PortIn := ⟨none, false, 0, 0⟩

/-- An input with `rst` high. -/
def resetting : PortIn := ⟨some filled.slots, true, 0x20000000, 1⟩

theorem zero_illegal (i : Instr) : decode 0 ≠ .ok i := by
  have h : decode 0 = .error (.unassignedOpcode 0) := test_decode_all_zero
  simp only [h, ne_eq, reduceCtorEq, not_false_eq_true]

theorem witness_DecodeInvertsEncode : (Instr.divmod 0 1 0 0).wellFormed = true ∧ (Instr.lxi 7 true 0x2000).wellFormed = true := by
  decide

theorem witness_EncodeInvertsDecode : decode 0x4C004000 = .ok (.divmod 0 1 0 0) := rfl

/-- One word of each case of R78, and a sampled illegal word. -/
theorem witness_IllegalWords : (∀ r ∈ opcodeMap, opcodeOf 0xFFFFFFFF ≠ r.1)
    ∧ (∃ r ∈ opcodeMap, opcodeOf 0x04100002 = r.1 ∧ 0x04100002#32 &&& r.2.2 ≠ r.2.1)
    ∧ (opcodeOf 0x4C000000 = 0x13 ∧ (0x4C000000#32).extractLsb' 23 3 = (0x4C000000#32).extractLsb' 14 3)
    ∧ ∀ i, decode filled.cmd ≠ .ok i :=
  ⟨by rw [show opcodeOf 0xFFFFFFFF = 0x3F#6 from rfl]; simp [opcodeMap], by decide, by decide, zero_illegal⟩

theorem witness_UnassignedOpcodes : (opcodeOf 0x03FFFFFF).toNat = 0x00 ∧ (opcodeOf 0x24000000).toNat = 0x09
    ∧ (opcodeOf 0x3FFFFFFF).toNat = 0x0F ∧ (opcodeOf 0x5C000000).toNat = 0x17 ∧ (opcodeOf 0x64000000).toNat = 0x19
    ∧ (opcodeOf 0xFFFFFFFF).toNat = 0x3F := by
  decide

theorem witness_Immediates : decode 0x07803FFF = .ok (.li 7 0x3FFF) ∧ decode 0x5590007F = .ok (.scale 3 1 127)
    ∧ decode 0x09806000 = .ok (.lxi 3 true 0x2000) ∧ decode 0x09801FFF = .ok (.lxi 3 false 0x1FFF) :=
  ⟨rfl, rfl, rfl, rfl⟩

theorem witness_OutputPins : filled.phase ≠ .inReset ∧ (portOut filled).cmdReady = true := by decide

theorem witness_StepRuns : (∃ c, (presenting 0x04000002 filled).commands[(presenting 0x04000002 filled).pc]? = some c
      ∧ decode c.word = .ok (.li 0 2)) ∧ (presenting 0x04000002 filled).rst = none
      ∧ (presenting 0x04000002 filled).fsr.f = false ∧ (presenting 0x04000002 filled).phase = .idle
      ∧ (inFlight 0x04000002 1).phase = .inFlight 1 ∧ decode (inFlight 0x04000002 1).cmd = .ok (.li 0 2) :=
  ⟨⟨⟨0x04000002, 0⟩, rfl, rfl⟩, rfl, rfl, rfl, rfl, rfl⟩

theorem witness_StepTakesIllegal : ∃ c, (presenting 0 filled).commands[(presenting 0 filled).pc]? = some c
    ∧ (∀ i, decode c.word ≠ .ok i) ∧ (presenting 0 filled).rst = none ∧ (presenting 0 filled).fsr.f = false
    ∧ (presenting 0 filled).phase = .idle :=
  ⟨⟨0, 0⟩, rfl, zero_illegal, rfl, rfl, rfl⟩

theorem witness_StepAlwaysAnswers : filled.fsr.f = false ∧ (faulted.fsr.f = true ∧ faulted.rst = none)
    ∧ ({ faulted with rst := some filled.slots } : State).rst ≠ none := by decide

theorem witness_FaultEntry : ∃ c t, (presenting 0x45940000 (pair 5 10)).commands[0]? = some c
    ∧ step (presenting 0x45940000 (pair 5 10)) = .next t ∧ t.fsr.f = true ∧ c.word = 0x45940000
    ∧ t.fsr.cause = some .operandOrder :=
  ⟨⟨0x45940000, 0⟩, _, rfl, rfl, rfl, rfl, rfl⟩

/-- The same for a command already in flight: an illegal word. -/
theorem witness_FaultEntryInFlight : (inFlight 0 1).rst = none ∧ (inFlight 0 1).fsr.f = false
    ∧ ∃ t, step (inFlight 0 1) = .next t ∧ t.fsr.f = true ∧ t.fsr.cause = some .illegalCommand :=
  ⟨rfl, rfl, _, rfl, rfl, rfl⟩

theorem faulted_inv : MachineInv faulted := by
  refine ⟨⟨by decide, by decide, by decide⟩, ⟨by decide, by decide⟩, by decide, ?_, by decide⟩
  intro n h
  cases h

theorem witness_FaultedState : MachineInv faulted ∧ faulted.fsr.f = true ∧ faulted.rst = none
    ∧ (∀ x ∈ [(quiet, 3), (⟨none, true, 0x04000001, 0⟩, 0)], x.1.rst = none) ∧ resetting.rst = some filled.slots :=
  ⟨faulted_inv, rfl, rfl, by decide, rfl⟩

/-- `filled` with `rst` about to be sampled high, and the reset state it leads to. -/
def resetPending : State := { filled with rst := some filled.slots }

theorem inReset_inv : MachineInv (enterReset filled.slots faulted) := by
  refine ⟨⟨by decide, by decide, by decide⟩, ⟨by decide, by decide⟩, by decide, ?_, by decide⟩
  intro n h
  cases h

theorem witness_ResetLeaves : resetting.rst = some filled.slots ∧ quiet.rst = none ∧ MachineInv faulted
    ∧ (∃ t, clockEdge quiet 0 faulted = .next t) ∧ resetPending.rst = some filled.slots ∧ faulted.fsr.f = true
    ∧ faulted.rst = none :=
  ⟨rfl, rfl, faulted_inv, ⟨_, rfl⟩, rfl, rfl, rfl⟩

theorem witness_ResetLeavesInReset : MachineInv (enterReset filled.slots faulted)
    ∧ (enterReset filled.slots faulted).phase = .inReset ∧ (enterReset filled.slots faulted).rst = none :=
  ⟨inReset_inv, rfl, rfl⟩

theorem witness_ResetStep : resetPending.rst = some filled.slots ∧ (enterReset filled.slots faulted).fsr.f = false
    ∧ (enterReset filled.slots faulted).phase = .inReset ∧ (enterReset filled.slots faulted).rst = none :=
  ⟨rfl, rfl, rfl, rfl⟩

theorem witness_ResetAbandons : (inFlight 0x04000002 2).phase = .inFlight 2 ∧ resetting.rst = some filled.slots := ⟨rfl, rfl⟩

theorem reset_inv : MachineInv State.reset := by
  refine ⟨⟨by decide, by decide, by decide⟩, ⟨by decide, by decide⟩, by decide, ?_, by decide⟩
  intro n h
  cases h

theorem witness_EveryStep : MachineInv State.reset ∧ FaultAttributed State.reset.fsr ∧ ∃ t, step State.reset = .next t :=
  ⟨reset_inv, trivial, _, rfl⟩

theorem witness_EveryClockEdge : MachineInv faulted ∧ ∃ t, clockEdge resetting 0 faulted = .next t := ⟨faulted_inv, _, rfl⟩

/-- A recorded fault that is attributed: the `SUB` word beside `OperandOrder`. -/
theorem witness_FaultAttributed : FaultAttributed faulted.fsr := ⟨3, 1, 2, rfl⟩

theorem witness_UnitSamples : quiet.rst = none ∧ ¬(quiet.cmdValid = true ∧ filled.cmdReady = true)
    ∧ ¬((⟨none, false, 7, 7⟩ : PortIn).cmdValid = true ∧ filled.cmdReady = true)
    ∧ (⟨none, true, 0x20000000, 1⟩ : PortIn).cmdValid = true ∧ filled.cmdReady = true := by
  decide

/-- A ready unit that has just shown a response, with the host's list at its end: nothing is accepted, by an edge or a step. -/
theorem witness_UnitHolds : ∃ s : State, s.rsp ≠ none ∧ s.rst = none ∧ s.cmdReady = true ∧ quiet.cmdValid = false
    ∧ s.commands[s.pc]? = none :=
  ⟨{ presenting 0x04000002 filled with rsp := some 5, pc := 1 }, by decide, rfl, rfl, rfl, rfl⟩

/-- The shortest latency: one edge after the accepting one, whatever `LAT_MAX` is. -/
theorem witness_ClockEdgesRefine :
    ∃ c, (presenting 0x04000002 filled).commands[(presenting 0x04000002 filled).pc]? = some c
      ∧ (⟨none, true, 0x04000002, 0⟩ : PortIn).cmd = c.word ∧ (⟨none, true, 0x04000002, 0⟩ : PortIn).wdata = c.wdata
      ∧ (∀ x ∈ [(quiet, 0)], x.1.rst = none) ∧ [(quiet, 0)].length = 0 % Config.latMax + 1 :=
  ⟨⟨0x04000002, 0⟩, rfl, rfl, rfl, by decide, by simp⟩

theorem witness_RunOfTheList : (presenting 0x45940000 (pair 5 10)).rst = none
    ∧ (presenting 0x45940000 (pair 5 10)).fsr.f = false ∧ (presenting 0x45940000 (pair 5 10)).phase = .idle
    ∧ (presenting 0x45940000 (pair 5 10)).pc ≤ (presenting 0x45940000 (pair 5 10)).commands.length := by
  decide

/-- A list that completes: two commands, both of which complete. -/
def completing : State := { filled with commands := [⟨0x04000002, 0⟩, ⟨0x48800000, 0⟩], pc := 0 }

theorem witness_RunOfTheListCompletes : completing.rst = none ∧ completing.fsr.f = false ∧ completing.phase = .idle
    ∧ completing.pc ≤ completing.commands.length
    ∧ ∃ t, Host.Core.run core (completing.commands.length - completing.pc) completing = .next t ∧ RunComplete t
      ∧ t.coeff 1 = 4 :=
  ⟨rfl, rfl, rfl, by decide, _, rfl, ⟨rfl, by decide⟩, by decide⟩

/-- Log entry 17: with no command in the list the run is complete at once. -/
theorem test_empty_list_complete : RunComplete State.reset := ⟨rfl, by decide⟩

theorem witness_Add : (pair (2 ^ 255 - 1) (2 ^ 255)).coeff 1 + (pair (2 ^ 255 - 1) (2 ^ 255)).coeff 2 < 2 ^ 256
    ∧ 2 ^ 256 ≤ (pair (2 ^ 255) (2 ^ 255)).coeff 1 + (pair (2 ^ 255) (2 ^ 255)).coeff 2 := by decide

theorem witness_Sub : (pair 9 9).coeff 2 ≤ (pair 9 9).coeff 1 ∧ (pair 8 9).coeff 1 < (pair 8 9).coeff 2 := by decide

theorem witness_Mul : (pair (2 ^ 128) (2 ^ 128 - 1)).coeff 1 * (pair (2 ^ 128) (2 ^ 128 - 1)).coeff 2 < 2 ^ 256
    ∧ 2 ^ 256 ≤ (pair (2 ^ 128) (2 ^ 128)).coeff 1 * (pair (2 ^ 128) (2 ^ 128)).coeff 2 := by decide

theorem witness_Divmod : (1 : SlotIx) ≠ 2 ∧ (pair 53 1).coeff 2 ≠ 0 ∧ (pair 53 0).coeff 2 = 0
    ∧ decode 0x4C004000 = .ok (.divmod 0 1 0 0) :=
  ⟨by decide, by decide, by decide, rfl⟩

theorem witness_Scale : (pair 1 0).coeff 1 * 10 ^ (77#7).toNat < 2 ^ 256 ∧ 2 ^ 256 ≤ (pair 2 0).coeff 1 * 10 ^ (77#7).toNat := by
  decide

/-- The counts of R103's examples, on both sides of a power of ten. -/
theorem witness_DigitCount : digitCount (10 ^ 34 - 1) = 34 ∧ digitCount (10 ^ 34) = 35 ∧ digitCount 9 = 1 ∧ digitCount 10 = 2 := by
  decide

/-- `ADD` then `SUB`, with the result in a slot of its own and over the second operand. -/
theorem witness_UndoAdd : (∃ t, exec (.add 3 1 2) (pair 4 1) = .next t ∧ t.rsp ≠ none)
    ∧ ∃ t, exec (.add 2 1 2) (pair 4 1) = .next t ∧ t.rsp ≠ none :=
  ⟨⟨_, rfl, by decide⟩, ⟨_, rfl, by decide⟩⟩

theorem witness_UndoMul : (3 : SlotIx) ≠ 4 ∧ (∃ t, exec (.mul 3 1 2) (pair 4 5) = .next t ∧ t.rsp ≠ none ∧ t.coeff 2 ≠ 0)
    ∧ ∃ t, exec (.mul 2 1 2) (pair 4 5) = .next t ∧ t.rsp ≠ none ∧ t.coeff 2 ≠ 0 :=
  ⟨by decide, ⟨_, rfl, by decide, by decide⟩, ⟨_, rfl, by decide, by decide⟩⟩

theorem witness_UndoScale : (4 : SlotIx) ≠ 5
    ∧ ∃ t, exec (.scale 3 1 5) (pair 7 100000) = .next t ∧ t.rsp ≠ none ∧ t.coeff 2 = 10 ^ (5#7).toNat :=
  ⟨by decide, _, rfl, by decide, by decide⟩

theorem witness_Bounded : ((pair (10 ^ 34 - 1) (10 ^ 34 - 1)).coeff 1 ≤ 10 ^ 34 - 1)
    ∧ (pair (2 ^ 255 - 1) 0).coeff 1 < 2 ^ 255 ∧ digitCount ((pair (10 ^ 40 - 1) 0).coeff 1) + digitCount (10 ^ 37 - 1) ≤ 77
    ∧ digitCount ((pair 1 0).coeff 1) + (76#7).toNat ≤ 77 := by
  decide

/-- A tie, a value below the tie, an exact removal. -/
theorem witness_DigitRemoval : 2 * |(25 : Int) - rhe 25 1 * 10 ^ 1| = 10 ^ 1 ∧ 5 * 2 ≤ 10 ^ 1 ∧ 250 % 10 ^ 1 = 0 := by decide

/-- The three ways through the precision stage: nothing, one pass, one pass and the extra pass. -/
theorem witness_PrecisionStage : AfterPrecisionStage (10 ^ 34 - 1) 0 (10 ^ 34 - 1) 0
    ∧ AfterPrecisionStage (10 ^ 35 - 6) 0 (10 ^ 34 - 1) 1 ∧ AfterPrecisionStage (10 ^ 35 - 5) 0 (10 ^ 33) 2 := by
  refine ⟨⟨?_, ?_⟩, ⟨?_, ?_⟩, ⟨?_, ?_⟩⟩ <;> decide

/-- `ROUND` at both ends of the exponent range and one past each. -/
theorem witness_Round : (AfterPrecisionStage ((triple true 5 6112).coeff 1) ((triple true 5 6112).expo 1) 5 6112)
    ∧ (AfterPrecisionStage ((triple true 5 6111).coeff 1) ((triple true 5 6111).expo 1) 5 6111)
    ∧ (AfterPrecisionStage ((triple true 5 (-6176)).coeff 1) ((triple true 5 (-6176)).expo 1) 5 (-6176))
    ∧ (AfterPrecisionStage ((triple true 5 (-6177)).coeff 1) ((triple true 5 (-6177)).expo 1) 5 (-6177)) := by
  refine ⟨⟨?_, ?_⟩, ⟨?_, ?_⟩, ⟨?_, ?_⟩, ⟨?_, ?_⟩⟩ <;> decide

theorem witness_DeficitShift : 10 ^ 34 - 1 ≤ 10 ^ 34 - 1 ∧ 35 ≤ 35 ∧ rhe (10 ^ 34 - 1) 34 = 1 ∧ rhe (10 ^ 34 - 1) 1 = 10 ^ 33 := by
  decide

theorem witness_RoundOutput : (∃ t, exec (.round 3 1) (triple true 5 6112) = .next t)
    ∧ ∃ t, exec (.round 3 1) (triple true 5 (-6177)) = .next t := ⟨⟨_, rfl⟩, ⟨_, rfl⟩⟩

/-- Each state meets all three bounds; one stands at the top of both ranges, one at the bottom. The second clause is met by a deficit
result, whose `TN` the second `ROUND` clears. -/
theorem witness_RoundIdentity :
    ((triple true (10 ^ 34 - 1) 6111).coeff 1 ≤ 10 ^ 34 - 1 ∧ -6176 ≤ (triple true (10 ^ 34 - 1) 6111).expo 1
      ∧ (triple true (10 ^ 34 - 1) 6111).expo 1 ≤ 6111)
    ∧ ((triple true 0 (-6176)).coeff 1 ≤ 10 ^ 34 - 1 ∧ -6176 ≤ (triple true 0 (-6176)).expo 1
      ∧ (triple true 0 (-6176)).expo 1 ≤ 6111)
    ∧ ∃ t, exec (.round 3 1) (triple true 15 (-6177)) = .next t ∧ (t.slot 3).t = .finite ∧ t.flags.tn = true :=
  ⟨by decide, by decide, _, rfl, by decide, by decide⟩

/-- Only the precision stage (one digit gone), and only the deficit stage (one digit gone). -/
theorem witness_RoundNearest :
    (∃ t, exec (.round 3 1) (triple false (10 ^ 34 + 6) 0) = .next t ∧ (t.slot 3).t = .finite ∧ t.flags.tn = false
      ∧ t.expo 3 = (triple false (10 ^ 34 + 6) 0).expo 1 + (1 : Nat))
    ∧ ∃ t, exec (.round 3 1) (triple true 15 (-6177)) = .next t ∧ (t.slot 3).t = .finite
      ∧ (triple true 15 (-6177)).coeff 1 ≤ 10 ^ 34 - 1 ∧ t.expo 3 = (triple true 15 (-6177)).expo 1 + (1 : Nat) :=
  ⟨⟨_, rfl, by decide, by decide, by decide⟩, ⟨_, rfl, by decide, by decide, by decide⟩⟩

/-- A completed and a faulted command. -/
theorem witness_Writes : (∃ t, exec (.add 3 1 2) (pair 4 1) = .next t ∧ t.rsp ≠ none)
    ∧ ∃ t, exec (.sub 3 1 2) (pair 5 10) = .next t ∧ t.rsp = none :=
  ⟨⟨_, rfl, by decide⟩, ⟨_, rfl, by decide⟩⟩

/-- Two different states that agree in what `ROUND V3, V1` reads: the tag of the source differs. -/
theorem witness_Reads : ReadsAgree (.round 3 1) (triple true 5 7) ((triple true 5 7).setAux 1 7 true .infinity)
    ∧ (triple true 5 7) ≠ (triple true 5 7).setAux 1 7 true .infinity
    ∧ (∃ t, exec (.round 3 1) (triple true 5 7) = .next t)
    ∧ ∃ t, exec (.round 3 1) ((triple true 5 7).setAux 1 7 true .infinity) = .next t := by
  refine ⟨⟨by decide, by decide, by decide, ?_, by decide⟩, by decide, ⟨_, rfl⟩, ⟨_, rfl⟩⟩
  intro k hk
  exact absurd hk (Nat.not_lt_zero k)

theorem witness_FlagProducers : (isAdd (.sub 3 1 2) = false ∧ isCmp (.cmp 1 2) = true ∧ isRound (.round 3 1) = true)
    ∧ ∃ t, exec (.cmp 1 2) (pair 5 5) = .next t :=
  ⟨by decide, _, rfl⟩

theorem witness_Faults : (Instr.divmod 3 4 1 2).wellFormed = true ∧ faultOf (.divmod 3 4 1 2) (pair 0 0) = some .divideByZero
    ∧ faultOf (.sub 3 1 2) (pair 8 9) = some .operandOrder ∧ faultOf (.scale 3 1 78) (pair 1 0) = some .capacityOverflow
    ∧ faultOf (.sub 3 1 2) (pair 9 9) = none ∧ faultOf (.divmod 3 4 1 2) (pair 0 1) = none
    ∧ faultOf (.add 3 1 2) (pair (2 ^ 255) (2 ^ 255)) = some .capacityOverflow
    ∧ faultOf (.mul 3 1 2) (pair (2 ^ 128) (2 ^ 128)) = some .capacityOverflow := by
  decide

theorem witness_Assembling : (Instr.divmod 4 5 3 0).wellFormed = true ∧ operandsOf (.lxi 4 true 0x2000)
    = [.slot 4, .sign true, .signed (-8192)] := by
  decide

end Sys2Proof.Tests
end

section
/-!
PROOFS. Scope (00_scope.md): what a step answers (R7, R8), which meaning it runs, and how a run of the host's command list ends
(R9, R10).
-/

namespace Sys2Proof.Machine

open Sys2Proof

/-! ### What a step answers -/

theorem completeCommand_answers_next (s : State) : ∃ t, completeCommand s = .next t := by
  obtain ⟨t, _, ht, _⟩ | ⟨t, _, ht, _⟩ := completeCommand_cases s
  · exact ⟨t, ht⟩
  · exact ⟨t, ht⟩

theorem step_answers_next_of_reset {s : State} (hr : s.rst ≠ none) : ∃ t, step s = .next t := by
  obtain ⟨v, hv⟩ := Option.ne_none_iff_exists'.mp hr
  exact ⟨_, step_reset hv⟩

theorem step_answers_next_of_not_faulted {s : State} (hr : s.rst = none) (hf : s.fsr.f = false) :
    ∃ t, step s = .next t := by
  cases hp : s.phase with
  | inReset => exact ⟨_, step_inReset hr hf hp⟩
  | inFlight n =>
    rw [step_inFlight hr hf hp]
    exact completeCommand_answers_next s
  | idle =>
    cases hc : s.commands[s.pc]? with
    | none => exact ⟨_, step_idle hr hf hp hc⟩
    | some c =>
      rw [step_presented hr hf hp hc]
      exact completeCommand_answers_next _

/-- The two answers a step has (R8): a next state, or the sticky fault of a unit already faulted (R205). -/
theorem step_answers (s : State) :
    (∃ t, step s = .next t) ∨ step s = .fault (.stopped s.fsr.cause s.fsr.fcmd) := by
  by_cases hr : s.rst = none
  · cases hf : s.fsr.f with
    | false => exact .inl (step_answers_next_of_not_faulted hr hf)
    | true => exact .inr (step_faulted hr hf)
  · exact .inl (step_answers_next_of_reset hr)

theorem step_ne_refused (s : State) (r : Refusal) : step s ≠ .refused r := by
  obtain ⟨t, ht⟩ | hf := step_answers s
  · simp [ht]
  · simp [hf]

/-- Settles O12: every phase of a unit not faulted has a next state, since every command completes or enters its fault. -/
theorem stepAlwaysAnswersUnlessFaulted : Obligations.StepAlwaysAnswersUnlessFaulted := by
  refine ⟨fun s h => ?_, fun s hf hr => step_faulted hr hf, step_ne_refused⟩
  by_cases hr : s.rst = none
  · exact step_answers_next_of_not_faulted hr (h.resolve_right (not_not_intro hr))
  · exact step_answers_next_of_reset hr

/-- Settles O10: the presented word is accepted and then completed; a word in flight is completed as it stands. -/
theorem stepRunsTheDecodedCommand : Obligations.StepRunsTheDecodedCommand := by
  constructor
  · intro s c i hr hf hp hc hd
    calc step s = completeCommand (accept c 0 s) := step_presented hr hf hp hc
      _ = exec i (accept c 0 s) := completeCommand_of_ok hd
  · intro s n i hr hf hp hd
    calc step s = completeCommand s := step_inFlight hr hf hp
      _ = exec i s := completeCommand_of_ok hd

/-! ### One command of the host's list -/

/-- The unit takes a command at its next step if the host presents one: `rst` low, not faulted, none in flight (R51, R52). -/
structure Ready (s : State) : Prop where
  rst : s.rst = none
  notFaulted : s.fsr.f = false
  idle : s.phase = .idle

/-- The step of the presented command completed: the unit is ready for the next one (R9). -/
structure ListAdvanced (s t : State) : Prop where
  ready : Ready t
  pc : t.pc = s.pc + 1
  commands : t.commands = s.commands

/-- The step of the command `c` of the list faulted: `FSR` records its word, and the index stays at it (R9, R203). -/
structure ListStopped (s t : State) (c : Command) : Prop where
  faulted : t.fsr.f = true
  fcmd : t.fsr.fcmd = c.word
  pc : t.pc = s.pc
  commands : t.commands = s.commands

/-- A ready unit takes the presented command and either moves on in the list or stops at that command. -/
theorem step_of_ready {s : State} {c : Command} (hs : Ready s) (hc : s.commands[s.pc]? = some c) :
    (∃ t, step s = .next t ∧ ListAdvanced s t) ∨ ∃ t, step s = .next t ∧ ListStopped s t c := by
  rw [step_presented hs.rst hs.notFaulted hs.idle hc]
  obtain ⟨t, rd, ht, hfsr, hphase, -, hpc, hcommands, hrst, -⟩ | ⟨t, k, ht, hfsr, -, -, -, -, hpc, hcommands, -⟩ :=
    completeCommand_cases (accept c 0 s)
  · refine .inl ⟨t, ht, ⟨hrst.trans hs.rst, ?_, hphase⟩, hpc, hcommands⟩
    simpa [hfsr] using hs.notFaulted
  · exact .inr ⟨t, ht, by simp [hfsr], by simp [hfsr], hpc, hcommands⟩

/-! ### A run of the host's list -/

theorem run_succ_of_step {s s' : State} (h : step s = .next s') (k : Nat) :
    Host.Core.run core (k + 1) s = Host.Core.run core k s' := by
  have h' : core.step s = .next s' := h
  simp only [Host.Core.run, h']

/-- The run of `n` steps from `s` ends complete, with the index at the end of the list (R10). -/
def EndsComplete (n : Nat) (s : State) : Prop :=
  ∃ t, Host.Core.run core n s = .next t ∧ RunComplete t ∧ t.pc = s.commands.length ∧ t.commands = s.commands

/-- The run from `s` has ended faulted after some `k ≤ n` steps, of which the last faulted and the others completed (R9, R10). -/
def EndsFaulted (n : Nat) (s : State) : Prop :=
  ∃ k t c, k ≤ n ∧ Host.Core.run core k s = .next t ∧ RunFaulted t ∧ t.commands = s.commands
    ∧ s.commands[t.pc]? = some c ∧ t.fsr.fcmd = c.word ∧ t.pc + 1 = s.pc + k

theorem endsComplete_zero {s : State} (hs : Ready s) (hn : s.pc = s.commands.length) : EndsComplete 0 s :=
  ⟨s, rfl, ⟨hs.notFaulted, hn.ge⟩, hn, rfl⟩

theorem EndsComplete.succ {n : Nat} {s s' : State} (hstep : step s = .next s') (ha : ListAdvanced s s')
    (h : EndsComplete n s') : EndsComplete (n + 1) s := by
  obtain ⟨t, hrun, hcomplete, hpc, hcommands⟩ := h
  rw [ha.commands] at hpc hcommands
  exact ⟨t, (run_succ_of_step hstep n).trans hrun, hcomplete, hpc, hcommands⟩

theorem EndsFaulted.succ {n : Nat} {s s' : State} (hstep : step s = .next s') (ha : ListAdvanced s s')
    (h : EndsFaulted n s') : EndsFaulted (n + 1) s := by
  obtain ⟨k, t, c, hk, hrun, hfaulted, hcommands, hc, hword, hpc⟩ := h
  rw [ha.commands] at hcommands hc
  have hindex : t.pc + 1 = s.pc + (k + 1) := by rw [hpc, ha.pc]; omega
  exact ⟨k + 1, t, c, Nat.succ_le_succ hk, (run_succ_of_step hstep k).trans hrun, hfaulted, hcommands, hc, hword, hindex⟩

theorem endsFaulted_of_stopped {s t : State} {c : Command} (hc : s.commands[s.pc]? = some c) (hstep : step s = .next t)
    (hst : ListStopped s t c) (n : Nat) : EndsFaulted (n + 1) s :=
  ⟨1, t, c, Nat.le_add_left 1 n, run_succ_of_step hstep 0, hst.faulted, hst.commands, hst.pc ▸ hc, hst.fcmd, by rw [hst.pc]⟩

/-- By induction on the number of commands left: the first one either stops the run or leaves a ready unit with one command fewer. -/
theorem run_of_ready (n : Nat) {s : State} (hs : Ready s) (hn : s.pc + n = s.commands.length) :
    EndsComplete n s ∨ EndsFaulted n s := by
  induction n generalizing s with
  | zero => exact .inl (endsComplete_zero hs hn)
  | succ n ih =>
    have hlt : s.pc < s.commands.length := by omega
    have hc : s.commands[s.pc]? = some s.commands[s.pc] := List.getElem?_eq_getElem hlt
    obtain ⟨t, hstep, ha⟩ | ⟨t, hstep, hst⟩ := step_of_ready hs hc
    · have hleft : t.pc + n = t.commands.length := by rw [ha.pc, ha.commands]; omega
      exact (ih ha.ready hleft).imp (EndsComplete.succ hstep ha) (EndsFaulted.succ hstep ha)
    · exact .inr (endsFaulted_of_stopped hc hstep hst n)

/-- Settles O23, by induction on the number of commands left in the list. -/
theorem runOfTheCommandListEnds : Obligations.RunOfTheCommandListEnds :=
  fun _ hr hf hp hle => run_of_ready _ ⟨hr, hf, hp⟩ (Nat.add_sub_of_le hle)

end Sys2Proof.Machine
end

section
/-!
PROOFS. State (10_state.md): the register layouts (R24 to R29), what each command raises, shows and writes, and from that the write
and read sets (R32), the flags' producers (R28) and the machine's invariant.
-/

namespace Sys2Proof.Machine

open Sys2Proof

/-! ### The register layouts (O7) -/

theorem auxWord_expo (v : Slot) : (auxWord v).extractLsb' 0 32 = v.e := by
  apply BitVec.eq_of_getLsbD_eq
  intro k hk
  simp [auxWord_getLsbD, hk]

theorem auxWord_sign (v : Slot) : (auxWord v).getLsbD 32 = v.s := auxWord_getLsbD v 32

theorem auxWord_tag (v : Slot) : (auxWord v).extractLsb' 33 2 = tagCode v.t := by
  apply BitVec.eq_of_getLsbD_eq
  intro k hk
  have h32 : ¬33 + k < 32 := by omega
  have h33 : ¬33 + k < 33 := by omega
  simp [auxWord_getLsbD, hk, h32, h33]

/-- A `FLAGS` value is one of 64. -/
theorem flagBits_layout (f : Flags) :
    (flagBits f).getLsbD 0 = f.cy ∧ (flagBits f).getLsbD 1 = f.eq ∧ (flagBits f).getLsbD 2 = f.lt
      ∧ (flagBits f).getLsbD 3 = f.of ∧ (flagBits f).getLsbD 4 = f.uf ∧ (flagBits f).getLsbD 5 = f.tn := by
  obtain ⟨cy, eq, lt, of, uf, tn⟩ := f
  revert cy eq lt of uf tn
  decide

theorem fsrBits_f (f : Fsr) : (fsrBits f).getLsbD 0 = f.f := fsrBits_getLsbD f 0

theorem fsrBits_cause (f : Fsr) : (fsrBits f).extractLsb' 1 4 = causeBits f.cause := by
  apply BitVec.eq_of_getLsbD_eq
  intro k hk
  have h5 : 1 + k < 5 := by omega
  simp [fsrBits_getLsbD, hk, h5]

theorem fsrBits_fcmd (f : Fsr) : (fsrBits f).extractLsb' 5 32 = f.fcmd := by
  apply BitVec.eq_of_getLsbD_eq
  intro k hk
  have h5 : ¬5 + k < 5 := by omega
  simp [fsrBits_getLsbD, hk, h5]

/-- Settles O7, from the bit-by-bit laws of `X`, `FLAGS` and `FSR`. -/
theorem registerBitsStandWhereStated : Obligations.RegisterBitsStandWhereStated :=
  ⟨fun v => ⟨auxWord_expo v, auxWord_sign v, auxWord_tag v⟩, ⟨rfl, rfl, rfl, rfl⟩, flagBits_layout,
    fun f => ⟨fsrBits_f f, fsrBits_cause f, fsrBits_fcmd f⟩, ⟨rfl, rfl, rfl, rfl, rfl⟩⟩

/-! ### What a command writes, shows and raises -/

/-- The fault the meaning of a command raises: the table of R200, and for the one ill-formed command log entry 10. -/
def raisedBy (i : Instr) (s : State) : Option Cause :=
  if i.wellFormed then faultOf i s else some .illegalCommand

/-- The `rdata` a completed command shows (R51, R174, R175, R177). -/
def responseOf (i : Instr) (s : State) : Coeff :=
  match i with
  | .stc a => (s.slot a).c
  | .stx a => (auxWord (s.slot a)).setWidth 256
  | .rdf => (flagBits s.flags).setWidth 256
  | _ => 0

/-- The flags after a completed command (R27). -/
def flagsAfter (i : Instr) (s : State) : Flags :=
  match i with
  | .add _ a b => flagsAfterAdd s.flags (s.coeff a + s.coeff b)
  | .cmp a b => flagsAfterCmp s.flags (s.coeff a) (s.coeff b)
  | .round _ a =>
    let r := roundTriple (s.slot a).s (s.coeff a) (s.expo a)
    flagsAfterRound s.flags r.of r.uf r.tn
  | _ => s.flags

/-- The state with the slot fields a completed command writes, and nothing else, written (R32). -/
def slotWrites (i : Instr) (s : State) : State :=
  match i with
  | .li d imm => s.setC d (zextImm imm)
  | .lxi d neg simm => s.setAux d (sextImm simm) neg .finite
  | .ldc d => s.setC d s.wdata
  | .ldx d => s.setAux d (auxExpo s.wdata) (auxSign s.wdata) (auxTag s.wdata)
  | .mov d a => s.setSlot d (s.slot a)
  | .add d a b => s.setC d (BitVec.ofNat 256 (s.coeff a + s.coeff b))
  | .sub d a b => s.setC d (BitVec.ofNat 256 (s.coeff a - s.coeff b))
  | .mul d a b => s.setC d (BitVec.ofNat 256 (s.coeff a * s.coeff b))
  | .divmod q r a b =>
    (s.setC q (BitVec.ofNat 256 (s.coeff a / s.coeff b))).setC r (BitVec.ofNat 256 (s.coeff a % s.coeff b))
  | .scale d a n => s.setC d (BitVec.ofNat 256 (s.coeff a * 10 ^ n.toNat))
  | .digits d a => s.setC d (BitVec.ofNat 256 (digitCount (s.coeff a)))
  | .round d a => s.setSlot d (roundTriple (s.slot a).s (s.coeff a) (s.expo a)).slot
  | .stc _ | .stx _ | .rdf | .cmp _ _ => s

/-- How `exec` ends, for every command at once: it raises its fault, or it responds with its writes made. -/
theorem exec_eq (i : Instr) (s : State) :
    exec i s = ((raisedBy i s).elim (respond (responseOf i s) ((slotWrites i s).setFlags (flagsAfter i s))) (raise · s)) := by
  cases i with
  | add | mul | scale =>
    simp only [exec, execAdd, execMul, execScale, writeExact, raisedBy, Instr.wellFormed, faultOf, if_true]
    split <;> rfl
  | sub =>
    simp only [exec, execSub, raisedBy, Instr.wellFormed, faultOf, if_true]
    split <;> rfl
  | divmod q r a b =>
    simp only [exec, execDivmod, raisedBy, Instr.wellFormed, faultOf, bne_iff_ne, ne_eq, ite_not]
    split
    · rfl
    · split <;> rfl
  | li | lxi | ldc | ldx | stc | stx | mov | rdf | cmp | digits | round => rfl

@[simp] theorem slotWrites_fsr (i : Instr) (s : State) : (slotWrites i s).fsr = s.fsr := by cases i <;> rfl

@[simp] theorem slotWrites_pc (i : Instr) (s : State) : (slotWrites i s).pc = s.pc := by cases i <;> rfl

theorem slotWrites_hostKept (i : Instr) (s : State) : HostKept s (slotWrites i s) := by
  cases i <;> exact ⟨rfl, rfl, rfl, rfl⟩

/-- The state `t` is what the completed command `i` leaves of `s`. -/
structure CompletedBy (i : Instr) (s t : State) : Prop where
  notRaised : raisedBy i s = none
  completed : Completed s t (responseOf i s)
  slots : t.slots = (slotWrites i s).slots
  flags : t.flags = flagsAfter i s

/-- Everything a command that answers a next state can have done. -/
theorem exec_next_cases {i : Instr} {s t : State} (h : exec i s = .next t) :
    CompletedBy i s t ∨ ∃ k, raisedBy i s = some k ∧ FaultEntered s t k := by
  rw [exec_eq] at h
  cases hk : raisedBy i s with
  | none =>
    obtain ⟨u, hu, hc, hs, hf⟩ := respond_completed (s := s) (responseOf i s)
      (u := (slotWrites i s).setFlags (flagsAfter i s)) (by simp) (by simp) (slotWrites_hostKept i s)
    obtain rfl : u = t := by simpa [hk, hu] using h
    exact .inl ⟨hk, hc, hs, hf⟩
  | some k =>
    obtain ⟨u, hu, hf⟩ := raise_faultEntered k s
    obtain rfl : u = t := by simpa [hk, hu] using h
    exact .inr ⟨k, rfl, hf⟩

/-! ### The write sets (O49) -/

@[simp] theorem State.setC_slot_e (s : State) (i j : SlotIx) (v : Coeff) : ((s.setC i v).slot j).e = (s.slot j).e := by
  rw [State.slot_setC]; split <;> simp_all

@[simp] theorem State.setC_slot_s (s : State) (i j : SlotIx) (v : Coeff) : ((s.setC i v).slot j).s = (s.slot j).s := by
  rw [State.slot_setC]; split <;> simp_all

@[simp] theorem State.setC_slot_t (s : State) (i j : SlotIx) (v : Coeff) : ((s.setC i v).slot j).t = (s.slot j).t := by
  rw [State.slot_setC]; split <;> simp_all

@[simp] theorem State.setAux_slot_c (s : State) (i j : SlotIx) (e : Expo) (n : Bool) (g : Tag) :
    ((s.setAux i e n g).slot j).c = (s.slot j).c := by
  rw [State.slot_setAux]; split <;> simp_all

theorem State.setAux_slot_of_ne (s : State) {i j : SlotIx} (h : j ≠ i) (e : Expo) (n : Bool) (g : Tag) :
    (s.setAux i e n g).slot j = s.slot j := by
  rw [State.slot_setAux, if_neg h]

/-- A `C` field outside the command's write set is kept (R32). -/
theorem slotWrites_c_of_not_mem (i : Instr) (s : State) {j : SlotIx} (hj : j ∉ writesC i) :
    ((slotWrites i s).slot j).c = (s.slot j).c := by
  cases i with
  | lxi | ldx => exact State.setAux_slot_c ..
  | stc | stx | rdf | cmp => rfl
  | divmod =>
    obtain ⟨hq, hr⟩ := List.ne_and_not_mem_of_not_mem_cons hj
    have hr := List.ne_of_not_mem_cons hr
    simp [slotWrites, hq, hr]
  | li | ldc | mov | add | sub | mul | scale | digits | round =>
    have hne := List.ne_of_not_mem_cons hj
    simp [slotWrites, hne]

/-- The `E`, `S`, `T` fields outside the command's write set are kept (R32). -/
theorem slotWrites_aux_of_not_mem (i : Instr) (s : State) {j : SlotIx} (hj : j ∉ writesAux i) :
    AuxKept s (slotWrites i s) j := by
  cases i with
  | stc | stx | rdf | cmp => exact ⟨rfl, rfl, rfl⟩
  | mov | round | lxi | ldx =>
    have hne := List.ne_of_not_mem_cons hj
    simp [slotWrites, AuxKept, State.setAux_slot_of_ne, hne]
  | li | ldc | add | sub | mul | divmod | scale | digits => simp [slotWrites, AuxKept]

theorem flagsAfter_cy_of_not_add {i : Instr} (h : isAdd i = false) (s : State) : (flagsAfter i s).cy = s.flags.cy := by
  cases i with
  | add => cases h
  | _ => rfl

theorem flagsAfter_cmp_of_not_cmp {i : Instr} (h : isCmp i = false) (s : State) :
    (flagsAfter i s).eq = s.flags.eq ∧ (flagsAfter i s).lt = s.flags.lt := by
  cases i with
  | cmp => cases h
  | _ => exact ⟨rfl, rfl⟩

theorem flagsAfter_round_of_not_round {i : Instr} (h : isRound i = false) (s : State) :
    (flagsAfter i s).of = s.flags.of ∧ (flagsAfter i s).uf = s.flags.uf ∧ (flagsAfter i s).tn = s.flags.tn := by
  cases i with
  | round => cases h
  | _ => exact ⟨rfl, rfl, rfl⟩

theorem CompletedBy.frameKept {i : Instr} {s t : State} (h : CompletedBy i s t) : FrameKept i s t := by
  have hslot := State.slot_congr h.slots
  simp only [FrameKept, hslot, h.flags]
  exact ⟨fun _ => slotWrites_c_of_not_mem i s, fun _ => slotWrites_aux_of_not_mem i s,
    (flagsAfter_cy_of_not_add · s), (flagsAfter_cmp_of_not_cmp · s), (flagsAfter_round_of_not_round · s)⟩

theorem frameKept_of_kept (i : Instr) {s t : State} (hs : t.slots = s.slots) (hf : t.flags = s.flags) : FrameKept i s t := by
  simp [FrameKept, State.slot_congr hs, hf]

/-- Settles O49: a completed command by its write sets, a faulted one because `raise` writes `FSR` alone. -/
theorem commandsWriteOnlyTheirFields : Obligations.CommandsWriteOnlyTheirFields := by
  intro i s t h
  obtain hc | ⟨k, -, hfsr, hslots, hflags, -, hrsp, hpc, hhost⟩ := exec_next_cases h
  · obtain ⟨hfsr, -, hrsp, hpc, hhost⟩ := hc.completed
    exact ⟨hc.frameKept, hhost, fun _ => ⟨hfsr, hpc⟩, fun hn => by simp [hrsp] at hn⟩
  · refine ⟨frameKept_of_kept i hslots hflags, hhost, fun hn => absurd hrsp hn, fun _ => ?_⟩
    exact ⟨hslots, hflags, hpc, by simp [hfsr], by simp [hfsr]⟩

/-! ### The read sets (O50) -/

theorem coeff_eq_of_readsAgree {i : Instr} {s s' : State} (h : ReadsAgree i s s') : ∀ a ∈ readsC i, s'.coeff a = s.coeff a :=
  fun a ha => congrArg BitVec.toNat (h.1 a ha)

/-- The fault depends on coefficients the command reads alone (R200). -/
theorem raisedBy_congr {i : Instr} {s s' : State} (h : ReadsAgree i s s') : raisedBy i s' = raisedBy i s := by
  have hc := coeff_eq_of_readsAgree h
  cases i with
  | add | sub | mul | divmod | scale =>
    simp only [readsC, List.forall_mem_cons] at hc
    simp [raisedBy, faultOf, hc]
  | li | lxi | ldc | ldx | stc | stx | mov | rdf | cmp | digits | round => rfl

theorem responseOf_congr {i : Instr} {s s' : State} (h : ReadsAgree i s s') : responseOf i s' = responseOf i s := by
  obtain ⟨hc, hes, ht, -, hf⟩ := h
  cases i with
  | stc a => exact hc a (by simp [readsC])
  | stx a =>
    obtain ⟨he, hs⟩ := hes a (by simp [readsExpoSign])
    have ht := ht a (by simp [readsTag])
    simp [responseOf, auxWord, he, hs, ht]
  | rdf => simp [responseOf, hf]
  | _ => rfl

/-- `LDX` reads bits 34:0 of `wdata` alone (R173, U9). -/
theorem auxFields_congr {w w' : Coeff} (h : ∀ k < 35, w'.getLsbD k = w.getLsbD k) :
    auxExpo w' = auxExpo w ∧ auxSign w' = auxSign w ∧ auxTag w' = auxTag w := by
  have hE : w'.extractLsb' 0 32 = w.extractLsb' 0 32 := by
    apply BitVec.eq_of_getLsbD_eq
    intro k hk
    simp [hk, h k (by omega)]
  have hT : w'.extractLsb' 33 2 = w.extractLsb' 33 2 := by
    apply BitVec.eq_of_getLsbD_eq
    intro k hk
    simp [hk, h (33 + k) (by omega)]
  exact ⟨hE, h 32 (by omega), congrArg tagOfCode hT⟩

/-- What `ROUND` computes does not depend on the source's tag (R147). -/
theorem roundTriple_eq_of_readsAgree {d a : SlotIx} {s s' : State} (h : ReadsAgree (.round d a) s s') :
    roundTriple (s'.slot a).s (s'.coeff a) (s'.expo a) = roundTriple (s.slot a).s (s.coeff a) (s.expo a) := by
  have hc := coeff_eq_of_readsAgree h a (by simp [readsC])
  obtain ⟨-, hes, -⟩ := h
  obtain ⟨he, hs⟩ := hes a (by simp [readsExpoSign])
  simp [State.expo, hc, he, hs]

/-- The `C` fields a command writes depend on what it reads alone. -/
theorem slotWrites_c_congr {i : Instr} {s s' : State} (h : ReadsAgree i s s') {d : SlotIx} (hd : d ∈ writesC i) :
    ((slotWrites i s').slot d).c = ((slotWrites i s).slot d).c := by
  have hc := coeff_eq_of_readsAgree h
  cases i with
  | lxi | ldx | stc | stx | rdf | cmp => cases hd
  | li =>
    obtain rfl := List.mem_singleton.mp hd
    simp [slotWrites]
  | ldc =>
    obtain rfl := List.mem_singleton.mp hd
    obtain ⟨-, -, -, hw, -⟩ := h
    have hw : s'.wdata = s.wdata := BitVec.eq_of_getLsbD_eq hw
    simp [slotWrites, hw]
  | mov d' a =>
    obtain rfl := List.mem_singleton.mp hd
    simpa [slotWrites] using h.1 a (by simp [readsC])
  | round =>
    obtain rfl := List.mem_singleton.mp hd
    simp [slotWrites, roundTriple_eq_of_readsAgree h]
  | divmod q r =>
    simp only [readsC, List.forall_mem_cons] at hc
    by_cases hr : d = r
    · simp [slotWrites, hc, hr]
    · obtain rfl : d = q := by simpa [writesC, hr] using hd
      simp [slotWrites, hc, hr]
  | add | sub | mul | scale | digits =>
    obtain rfl := List.mem_singleton.mp hd
    simp only [readsC, List.forall_mem_cons] at hc
    simp [slotWrites, hc]

/-- The `E`, `S`, `T` fields a command writes depend on what it reads alone. -/
theorem slotWrites_aux_congr {i : Instr} {s s' : State} (h : ReadsAgree i s s') {d : SlotIx} (hd : d ∈ writesAux i) :
    AuxKept (slotWrites i s) (slotWrites i s') d := by
  cases i with
  | li | ldc | stc | stx | rdf | add | sub | mul | divmod | cmp | scale | digits => cases hd
  | lxi =>
    obtain rfl := List.mem_singleton.mp hd
    simp [slotWrites, AuxKept, State.slot_setAux]
  | ldx =>
    obtain rfl := List.mem_singleton.mp hd
    obtain ⟨-, -, -, hw, -⟩ := h
    simp [slotWrites, AuxKept, State.slot_setAux, auxFields_congr hw]
  | mov d' a =>
    obtain rfl := List.mem_singleton.mp hd
    obtain ⟨-, hes, ht, -⟩ := h
    simpa [slotWrites, AuxKept, and_assoc] using And.intro (hes a (by simp [readsExpoSign])) (ht a (by simp [readsTag]))
  | round =>
    obtain rfl := List.mem_singleton.mp hd
    simp [slotWrites, AuxKept, roundTriple_eq_of_readsAgree h]

theorem flagsAfter_cy_congr {i : Instr} {s s' : State} (h : ReadsAgree i s s') (hi : isAdd i = true) :
    (flagsAfter i s').cy = (flagsAfter i s).cy := by
  have hc := coeff_eq_of_readsAgree h
  cases i with
  | add =>
    simp only [readsC, List.forall_mem_cons] at hc
    simp [flagsAfter, flagsAfterAdd, hc]
  | _ => cases hi

theorem flagsAfter_cmp_congr {i : Instr} {s s' : State} (h : ReadsAgree i s s') (hi : isCmp i = true) :
    (flagsAfter i s').eq = (flagsAfter i s).eq ∧ (flagsAfter i s').lt = (flagsAfter i s).lt := by
  have hc := coeff_eq_of_readsAgree h
  cases i with
  | cmp =>
    simp only [readsC, List.forall_mem_cons] at hc
    simp [flagsAfter, flagsAfterCmp, hc]
  | _ => cases hi

theorem flagsAfter_round_congr {i : Instr} {s s' : State} (h : ReadsAgree i s s') (hi : isRound i = true) :
    (flagsAfter i s').of = (flagsAfter i s).of ∧ (flagsAfter i s').uf = (flagsAfter i s).uf
      ∧ (flagsAfter i s').tn = (flagsAfter i s).tn := by
  cases i with
  | round => simp [flagsAfter, flagsAfterRound, roundTriple_eq_of_readsAgree h]
  | _ => cases hi

theorem CompletedBy.writesAgree {i : Instr} {s s' t t' : State} (h : ReadsAgree i s s') (hc : CompletedBy i s t)
    (hc' : CompletedBy i s' t') : WritesAgree i t t' := by
  simp only [WritesAgree, State.slot_congr hc.slots, State.slot_congr hc'.slots, hc.flags, hc'.flags]
  exact ⟨fun _ => slotWrites_c_congr h, fun _ => slotWrites_aux_congr h, flagsAfter_cy_congr h, flagsAfter_cmp_congr h,
    flagsAfter_round_congr h⟩

/-- Two executions of one command that raise the same both complete or both fault, with the same cause. -/
theorem exec_next_cases_pair {i : Instr} {s s' t t' : State} (hk : raisedBy i s' = raisedBy i s) (h : exec i s = .next t)
    (h' : exec i s' = .next t') :
    (CompletedBy i s t ∧ CompletedBy i s' t') ∨ ∃ k, FaultEntered s t k ∧ FaultEntered s' t' k := by
  obtain hc | ⟨k, hr, hf⟩ := exec_next_cases h <;> obtain hc' | ⟨k', hr', hf'⟩ := exec_next_cases h'
  · exact .inl ⟨hc, hc'⟩
  · simp [hr', hc.notRaised] at hk
  · simp [hr, hc'.notRaised] at hk
  · obtain rfl : k' = k := by simpa [hr, hr'] using hk
    exact .inr ⟨k', hf, hf'⟩

/-- Settles O50: fault, response and written fields are functions of the fields read. -/
theorem commandsReadOnlyTheirFields : Obligations.CommandsReadOnlyTheirFields := by
  intro i s s' t t' hreads h h'
  obtain ⟨hc, hc'⟩ | ⟨k, hf, hf'⟩ := exec_next_cases_pair (raisedBy_congr hreads) h h'
  · obtain ⟨-, -, hrsp, -⟩ := hc.completed
    obtain ⟨-, -, hrsp', -⟩ := hc'.completed
    exact ⟨by rw [hrsp, hrsp', responseOf_congr hreads], fun hn => by simp [hrsp] at hn, fun _ => hc.writesAgree hreads hc'⟩
  · obtain ⟨hfsr, -, -, -, hrsp, -⟩ := hf
    obtain ⟨hfsr', -, -, -, hrsp', -⟩ := hf'
    exact ⟨hrsp'.trans hrsp.symm, fun _ => by rw [hfsr, hfsr'], fun hn => absurd hrsp hn⟩

/-! ### The flags and their producers (O51) -/

theorem raisedBy_eq_none_of_cmp {i : Instr} (h : isCmp i = true) (s : State) : raisedBy i s = none := by
  cases i with
  | cmp => rfl
  | _ => cases h

theorem raisedBy_eq_none_of_round {i : Instr} (h : isRound i = true) (s : State) : raisedBy i s = none := by
  cases i with
  | round => rfl
  | _ => cases h

theorem raisedBy_setFlags (i : Instr) (s : State) (f : Flags) : raisedBy i (s.setFlags f) = raisedBy i s := by
  cases i <;> rfl

theorem slotWrites_setFlags (i : Instr) (s : State) (f : Flags) :
    slotWrites i (s.setFlags f) = (slotWrites i s).setFlags f := by
  cases i <;> rfl

theorem readsAgree_setFlags {i : Instr} (h : i ≠ .rdf) (s : State) (f : Flags) : ReadsAgree i s (s.setFlags f) :=
  ⟨fun _ _ => rfl, fun _ _ => ⟨rfl, rfl⟩, fun _ _ => rfl, fun _ _ => rfl, fun hi => absurd hi h⟩

theorem rsp_ne_none_of_not_raised {i : Instr} {s t : State} (h : exec i s = .next t) (hn : raisedBy i s = none) :
    t.rsp ≠ none := by
  obtain hc | ⟨k, hk, -⟩ := exec_next_cases h
  · obtain ⟨-, -, hrsp, -⟩ := hc.completed
    simp [hrsp]
  · simp [hk] at hn

theorem exec_answers_next (i : Instr) (s : State) : ∃ t, exec i s = .next t := by
  obtain ⟨t, -, h, -⟩ | ⟨t, -, h, -⟩ := exec_cases i s <;> exact ⟨t, h⟩

/-- With any other flags before, a command leaves the same slots, `FSR` and index (R28). -/
theorem exec_setFlags_same_state {i : Instr} {s t u : State} {f : Flags} (h : exec i s = .next t)
    (hu : exec i (s.setFlags f) = .next u) : u.slots = t.slots ∧ u.fsr = t.fsr ∧ u.pc = t.pc := by
  obtain ⟨hc, hc'⟩ | ⟨k, hf, hf'⟩ := exec_next_cases_pair (raisedBy_setFlags i s f) h hu
  · obtain ⟨hfsr, -, -, hpc, -⟩ := hc.completed
    obtain ⟨hfsr', -, -, hpc', -⟩ := hc'.completed
    exact ⟨by simp [hc.slots, hc'.slots, slotWrites_setFlags], hfsr'.trans hfsr.symm, hpc'.trans hpc.symm⟩
  · obtain ⟨hfsr, hslots, -, -, -, hpc, -⟩ := hf
    obtain ⟨hfsr', hslots', -, -, -, hpc', -⟩ := hf'
    exact ⟨hslots'.trans hslots.symm, hfsr'.trans hfsr.symm, hpc'.trans hpc.symm⟩

/-- A command that does not write a flag, or that faults, keeps it (R28). -/
theorem exec_keeps_flags {i : Instr} {s t : State} (h : exec i s = .next t) :
    (isAdd i = false ∨ t.rsp = none → t.flags.cy = s.flags.cy)
    ∧ (isCmp i = false ∨ t.rsp = none → t.flags.eq = s.flags.eq ∧ t.flags.lt = s.flags.lt)
    ∧ (isRound i = false ∨ t.rsp = none →
        t.flags.of = s.flags.of ∧ t.flags.uf = s.flags.uf ∧ t.flags.tn = s.flags.tn) := by
  obtain ⟨⟨-, -, hcy, hcmp, hround⟩, -, -, hfault⟩ := commandsWriteOnlyTheirFields i s t h
  have hkept (hn : t.rsp = none) : t.flags = s.flags := by
    obtain ⟨-, hflags, -⟩ := hfault hn
    exact hflags
  refine ⟨?_, ?_, ?_⟩
  · rintro (hi | hn)
    · exact hcy hi
    · rw [hkept hn]
  · rintro (hi | hn)
    · exact hcmp hi
    · simp [hkept hn]
  · rintro (hi | hn)
    · exact hround hi
    · simp [hkept hn]

/-- Settles O51: every command but `RDF` reads no flag, so that its read set gives what it shows and what it writes. -/
theorem flagsAreWrittenByTheirProducersOnly : Obligations.FlagsAreWrittenByTheirProducersOnly := by
  refine ⟨fun i s t h => exec_keeps_flags h, fun i s t f h => ?_⟩
  obtain ⟨u, hu⟩ := exec_answers_next i (s.setFlags f)
  obtain ⟨hslots, hfsr, hpc⟩ := exec_setFlags_same_state h hu
  refine ⟨u, hu, hslots, hfsr, hpc, ?_⟩
  by_cases hi : i = .rdf
  · subst hi
    simp [isAdd, isCmp, isRound]
  · obtain ⟨hrsp, -, hwrites⟩ := commandsReadOnlyTheirFields i _ _ _ _ (readsAgree_setFlags hi s f) h hu
    refine ⟨fun _ => hrsp, fun ha hn => ?_, fun hcmp => ?_, fun hround => ?_⟩
    · obtain ⟨-, -, hcy, -⟩ := hwrites hn
      exact hcy ha
    · obtain ⟨-, -, -, heq, -⟩ := hwrites (rsp_ne_none_of_not_raised h (raisedBy_eq_none_of_cmp hcmp s))
      exact heq hcmp
    · obtain ⟨-, -, -, -, hof⟩ := hwrites (rsp_ne_none_of_not_raised h (raisedBy_eq_none_of_round hround s))
      exact hof hround

/-! ### The machine's invariant (O17, O18, O19) -/

/-- The Rounder's flags: overflow excludes underflow and tininess, and underflow implies tininess (R27, R146). -/
theorem roundTriple_flags (neg : Bool) (c : Nat) (e : Int) :
    ((roundTriple neg c e).of = true → (roundTriple neg c e).uf = false ∧ (roundTriple neg c e).tn = false)
      ∧ ((roundTriple neg c e).uf = true → (roundTriple neg c e).tn = true) := by
  have hc := precisionStage_lt c e
  unfold roundTriple
  generalize precisionStage c e = p at hc ⊢
  rcases lt_or_ge 6111 p.2 with hover | hle
  · simp [rangeStage_of_overflow, hover]
  · rcases lt_or_ge p.2 (-6176) with hdeficit | hge
    · simp [rangeStage_of_deficit neg hc hdeficit]
    · simp [rangeStage_of_inRange, hge, hle]

theorem flagsAfter_legal (i : Instr) {s : State} (h : FlagsLegal s.flags) : FlagsLegal (flagsAfter i s) := by
  obtain ⟨hcmp, hof, huf⟩ := h
  cases i with
  | cmp a b =>
    have hne : ¬(s.coeff a = s.coeff b ∧ s.coeff a < s.coeff b) := by omega
    exact ⟨by simpa [flagsAfter, flagsAfterCmp] using hne, hof, huf⟩
  | round d a => exact ⟨hcmp, roundTriple_flags _ _ _⟩
  | _ => exact ⟨hcmp, hof, huf⟩

theorem exec_keeps_flagsLegal {i : Instr} {s t : State} (h : exec i s = .next t) (hs : FlagsLegal s.flags) :
    FlagsLegal t.flags := by
  obtain hc | ⟨k, -, -, -, hflags, -⟩ := exec_next_cases h
  · rw [hc.flags]
    exact flagsAfter_legal i hs
  · rwa [hflags]

theorem completeCommand_keeps_flagsLegal {s t : State} (h : completeCommand s = .next t) (hs : FlagsLegal s.flags) :
    FlagsLegal t.flags := by
  by_cases hd : ∃ i, decode s.cmd = .ok i
  · obtain ⟨i, hi⟩ := hd
    exact exec_keeps_flagsLegal (completeCommand_of_ok hi ▸ h) hs
  · obtain ⟨u, hu, -, -, hflags, -⟩ := raise_faultEntered .illegalCommand s
    rw [completeCommand_of_illegal (not_exists.mp hd), hu] at h
    cases h
    rwa [hflags]

theorem fsrLegal_clear : FsrLegal Fsr.clear := by simp [FsrLegal, Fsr.clear]

theorem flagsLegal_clear : FlagsLegal Flags.clear := by simp [FlagsLegal, Flags.clear]

theorem fsrLegal_faulted (k : Cause) (w : CmdWord) : FsrLegal ⟨true, some k, w⟩ := by simp [FsrLegal]

/-- Of an idle unit the invariant says only that its flags and `FSR` are legal, and that a faulted one shows no response. -/
theorem machineInv_of_idle {s : State} (hp : s.phase = .idle) (hflags : FlagsLegal s.flags) (hfsr : FsrLegal s.fsr)
    (hrsp : s.fsr.f = true → s.rsp = none) : MachineInv s :=
  ⟨hflags, hfsr, fun hf => ⟨hp, hrsp hf⟩, by simp [hp], by simp [hp]⟩

theorem machineInv_of_inFlight {s : State} {n : Nat} (hp : s.phase = .inFlight n) (hflags : FlagsLegal s.flags)
    (hfsr : FsrLegal s.fsr) (hf : s.fsr.f = false) (hrsp : s.rsp = none) : MachineInv s :=
  ⟨hflags, hfsr, by simp [hf], fun _ _ => hrsp, by simp [hp]⟩

theorem machineInv_resetWith (v : Vector Slot 8) : MachineInv (State.resetWith v) :=
  machineInv_of_idle rfl flagsLegal_clear fsrLegal_clear fun _ => rfl

theorem machineInv_enterReset (v : Vector Slot 8) (s : State) : MachineInv (enterReset v s) :=
  ⟨flagsLegal_clear, fsrLegal_clear, nofun, fun _ _ => rfl, fun _ => ⟨rfl, rfl, rfl⟩⟩

theorem machineInv_leaveReset {s : State} (h : MachineInv s) : MachineInv (leaveReset s) := by
  obtain ⟨hflags, hfsr, -⟩ := h
  exact machineInv_of_idle rfl hflags hfsr fun _ => rfl

theorem machineInv_hold {s : State} (h : MachineInv s) : MachineInv (hold s) := by
  obtain ⟨hflags, hfsr, hf, -, hreset⟩ := h
  exact ⟨hflags, hfsr, fun hs => ⟨(hf hs).1, rfl⟩, fun _ _ => rfl, fun hp => ⟨rfl, (hreset hp).2⟩⟩

theorem MachineInv.notFaulted_of_inFlight {s : State} {n : Nat} (h : MachineInv s) (hp : s.phase = .inFlight n) :
    s.fsr.f = false := by
  obtain ⟨-, -, hf, -⟩ := h
  by_contra hne
  have hidle := (hf (by simpa using hne)).1
  simp [hp] at hidle

theorem machineInv_accept {s : State} (h : MachineInv s) (hf : s.fsr.f = false) (c : Command) (n : Nat) :
    MachineInv (accept c n s) := by
  obtain ⟨hflags, hfsr, -⟩ := h
  exact machineInv_of_inFlight rfl hflags hfsr hf rfl

/-- A command in flight that completes or faults leaves an idle unit that meets the invariant. -/
theorem machineInv_completeCommand {s t : State} {n : Nat} (h : MachineInv s) (hp : s.phase = .inFlight n)
    (ht : completeCommand s = .next t) : MachineInv t := by
  have hnot := h.notFaulted_of_inFlight hp
  obtain ⟨hflags, hlegal, -⟩ := h
  have hflags := completeCommand_keeps_flagsLegal ht hflags
  obtain ⟨u, rd, hu, hfsr, hphase, -⟩ | ⟨u, k, hu, hfsr, -, -, hphase, hrsp, -⟩ := completeCommand_cases s <;>
    obtain rfl : u = t := by simpa [hu] using ht
  · exact machineInv_of_idle hphase hflags (hfsr ▸ hlegal) (by simp [hfsr, hnot])
  · exact machineInv_of_idle hphase hflags (hfsr ▸ fsrLegal_faulted k s.cmd) fun _ => hrsp

/-- Settles O17: a reset unit is idle with clear flags and a clear `FSR`, and its slots are no part of the invariant. -/
theorem invariantHoldsAfterReset : Obligations.InvariantHoldsAfterReset :=
  ⟨fun v => ⟨machineInv_resetWith v, trivial⟩, machineInv_resetWith _⟩

/-- Settles O18, one case per action a step can be. -/
theorem everyStepKeepsTheInvariant : Obligations.EveryStepKeepsTheInvariant := by
  intro s t hs h
  obtain ⟨v, -, rfl⟩ | ⟨-, -, -, rfl⟩ | ⟨-, -, ⟨n, hp⟩, hc⟩ | ⟨c, -, hf, -, -, hc⟩ | ⟨-, -, -, -, rfl⟩ := step_cases h
  · exact machineInv_enterReset v s
  · exact machineInv_leaveReset hs
  · exact machineInv_completeCommand hs hp hc
  · exact machineInv_completeCommand (machineInv_accept hs hf c 0) rfl hc
  · exact machineInv_hold hs

/-- Settles O19, one case per action a clock edge can be. -/
theorem everyClockEdgeKeepsTheInvariant : Obligations.EveryClockEdgeKeepsTheInvariant := by
  intro p l s t hs h
  obtain ⟨v, -, rfl⟩ | ⟨-, -, rfl⟩ | ⟨n, -, hp, rfl⟩ | ⟨-, hp, hc⟩ | ⟨-, -, -, hready, rfl⟩ | ⟨-, -, -, rfl⟩ :=
    clockEdge_cases h
  · exact machineInv_enterReset v s
  · exact machineInv_leaveReset hs
  · have hnot := hs.notFaulted_of_inFlight hp
    obtain ⟨hflags, hfsr, -⟩ := hs
    exact machineInv_of_inFlight rfl hflags hfsr hnot rfl
  · exact machineInv_completeCommand hs hp hc
  · exact machineInv_accept hs ((cmdReady_iff s).mp hready).2 _ _
  · exact machineInv_hold hs

end Sys2Proof.Machine
end

section
/-!
PROOFS. Ports (20_memory.md): the word order of the 256-bit ports (R54), what the output pins show (R51), when the unit samples its
inputs (R52), and that the edges of one command do one step (R53).
-/

namespace Sys2Proof.Machine

open Sys2Proof

/-! ### The order of the port words (O8) -/

theorem ofWords_toNat (w0 w1 w2 w3 : BitVec 64) :
    (ofWords w0 w1 w2 w3).toNat = w0.toNat + 2 ^ 64 * w1.toNat + 2 ^ 128 * w2.toNat + 2 ^ 192 * w3.toNat := by
  change (w3 ++ w2 ++ w1 ++ w0 : BitVec (64 + 64 + 64 + 64)).toNat = _
  simp only [toNat_append_eq]
  ring

theorem word64_toNat (v : Coeff) (w : Fin 4) : (word64 v w).toNat = v.toNat / 2 ^ (64 * w.val) % 2 ^ 64 := by
  rw [word64, BitVec.extractLsb'_toNat, Nat.shiftRight_eq_div_pow]

/-- Both sides are the same number: its four digits in base `2^64`, weighted. -/
theorem ofWords_word64 (v : Coeff) : ofWords (word64 v 0) (word64 v 1) (word64 v 2) (word64 v 3) = v := by
  apply BitVec.eq_of_toNat_eq
  have hv := v.isLt
  simp only [ofWords_toNat, word64_toNat, Fin.coe_ofNat_eq_mod, Nat.reduceMod, Nat.reduceMul]
  omega

/-- Settles O8, on the values of the words as numbers. -/
theorem portWordsAreOrderedLowFirst : Obligations.PortWordsAreOrderedLowFirst :=
  ⟨ofWords_toNat, ofWords_word64⟩

/-! ### The output pins (O9) -/

theorem Phase.eq_idle_iff (p : Phase) : p = .idle ↔ p ≠ .inReset ∧ ∀ n, p ≠ .inFlight n := by
  cases p <;> simp

theorem portOut_cmdReady_iff (s : State) :
    (portOut s).cmdReady = true ↔ s.phase ≠ .inReset ∧ (∀ n, s.phase ≠ .inFlight n) ∧ s.fsr.f = false :=
  calc (portOut s).cmdReady = true
    _ ↔ s.phase = .idle ∧ s.fsr.f = false := cmdReady_iff s
    _ ↔ s.phase ≠ .inReset ∧ (∀ n, s.phase ≠ .inFlight n) ∧ s.fsr.f = false := by
      rw [Phase.eq_idle_iff, and_assoc]

theorem portOut_rdata {s : State} (h : s.phase ≠ .inReset) : (portOut s).rdata = s.rsp := by
  cases hp : s.phase with
  | inReset => exact absurd hp h
  | idle | inFlight => simp [portOut, hp]

/-- Settles O9, pin by pin. -/
theorem outputPinsShowTheState : Obligations.OutputPinsShowTheState :=
  fun s => ⟨portOut_cmdReady_iff s, rfl, rfl, rfl, Option.isSome_iff_exists, portOut_rdata⟩

/-! ### Sampling and holding (O21) -/

theorem clockEdge_inReset {p : PortIn} (l : Nat) {s : State} (hr : p.rst = none) (hp : s.phase = .inReset) :
    clockEdge p l s = .next (leaveReset s) := by
  simp [clockEdge, hr, hp]

/-- An edge that accepts nothing depends on the host's `rst` pin alone (R52). -/
theorem clockEdge_congr_of_not_accepted {p q : PortIn} (l : Nat) {s : State} (hrst : p.rst = q.rst)
    (hp : ¬(p.cmdValid = true ∧ s.cmdReady = true)) (hq : ¬(q.cmdValid = true ∧ s.cmdReady = true)) :
    clockEdge p l s = clockEdge q l s := by
  cases hqr : q.rst with
  | some v => rw [clockEdge_reset l s (hrst.trans hqr), clockEdge_reset l s hqr]
  | none =>
    have hpr := hrst.trans hqr
    cases hs : s.phase with
    | inReset => rw [clockEdge_inReset l hpr hs, clockEdge_inReset l hqr hs]
    | idle => rw [clockEdge_idle l hpr hs hp, clockEdge_idle l hqr hs hq]
    | inFlight n =>
      cases n with
      | zero => rw [clockEdge_complete l hpr hs, clockEdge_complete l hqr hs]
      | succ n => rw [clockEdge_wait l hpr hs, clockEdge_wait l hqr hs]

/-- A unit with a command in flight is not ready and shows no response, and acceptance has changed no register (R52, R53). -/
theorem accept_unready_frame (c : Command) (w : Nat) (s : State) :
    (accept c w s).cmdReady = false ∧ (accept c w s).rsp = none ∧ (accept c w s).slots = s.slots
      ∧ (accept c w s).flags = s.flags ∧ (accept c w s).fsr = s.fsr :=
  ⟨rfl, rfl, rfl, rfl, rfl⟩

/-- A ready unit that holds stays ready, and its pins show no response (R51, R215). -/
theorem hold_of_ready {s : State} (hready : s.cmdReady = true) :
    UnitHeld s (hold s) ∧ (portOut (hold s)).cmdReady = true ∧ (portOut (hold s)).rspValid = false :=
  ⟨hold_unitHeld s, hready, rfl⟩

/-- Settles O21: the accepting edge is `accept`, and a ready unit that accepts nothing does `hold`. -/
theorem unitSamplesOnlyAtAcceptance : Obligations.UnitSamplesOnlyAtAcceptance := by
  refine ⟨fun p q l s => clockEdge_congr_of_not_accepted l, fun p l s hr hv hready => ?_, fun p l s hr hv hready => ?_,
    fun s hr hready hc => ?_⟩
  · exact ⟨_, clockEdge_accept l hr hv hready, rfl, rfl, accept_unready_frame _ _ s⟩
  · obtain ⟨hidle, -⟩ := (cmdReady_iff s).mp hready
    exact ⟨hold s, clockEdge_idle l hr hidle (by simp [hv]), hold_of_ready hready⟩
  · obtain ⟨hidle, hf⟩ := (cmdReady_iff s).mp hready
    exact ⟨hold s, step_idle hr hf hidle hc, hold_of_ready hready⟩

/-! ### The edges of one command (O22) -/

theorem runEdges_cons_of_next {p : PortIn} {l : Nat} {s s' : State} (h : clockEdge p l s = .next s')
    (es : List (PortIn × Nat)) : runEdges ((p, l) :: es) s = runEdges es s' := by
  simp only [runEdges, h]

/-- An edge of the wait for completion counts down and does nothing else, whatever the host's ports hold with `rst` low. -/
theorem clockEdge_accept_succ {p : PortIn} (l : Nat) (hr : p.rst = none) (c : Command) (w : Nat) (s : State) :
    clockEdge p l (accept c (w + 1) s) = .next (accept c w s) :=
  clockEdge_wait l hr (accept_phase s c (w + 1))

/-- After the edges `ws` of the wait, so many fewer are left, by induction on them; then come the edges `es`. -/
theorem runEdges_accept_append {ws : List (PortIn × Nat)} (hws : ∀ x ∈ ws, x.1.rst = none) (es : List (PortIn × Nat))
    (c : Command) (w : Nat) (s : State) :
    runEdges (ws ++ es) (accept c (w + ws.length) s) = runEdges es (accept c w s) := by
  induction ws with
  | nil => rfl
  | cons x xs ih =>
    obtain ⟨hx, hxs⟩ := List.forall_mem_cons.mp hws
    exact (runEdges_cons_of_next (clockEdge_accept_succ x.2 hx c (w + xs.length) s) (xs ++ es)).trans (ih hxs)

/-- Until the completing edge the accepted command is in flight and nothing else has changed. -/
theorem runEdges_accept_wait {ws : List (PortIn × Nat)} (hws : ∀ x ∈ ws, x.1.rst = none) (c : Command) (w : Nat) (s : State) :
    runEdges ws (accept c (w + ws.length) s) = .next (accept c w s) := by
  simpa [runEdges] using runEdges_accept_append hws [] c w s

/-- The edges of the wait and one more complete the accepted command. -/
theorem runEdges_accept_complete {es : List (PortIn × Nat)} (hes : ∀ x ∈ es, x.1.rst = none) (c : Command) {w : Nat}
    (hw : es.length = w + 1) (s : State) : runEdges es (accept c w s) = completeCommand (accept c 0 s) := by
  obtain rfl | ⟨ws, x, rfl⟩ := List.eq_nil_or_concat' es
  · simp at hw
  obtain ⟨hws, hx⟩ := List.forall_mem_append.mp hes
  obtain rfl : 0 + ws.length = w := by simpa using hw
  obtain ⟨t, ht⟩ := completeCommand_answers_next (accept c 0 s)
  have hedge := clockEdge_complete x.2 (hx x (List.mem_singleton_self x)) (accept_phase s c 0)
  calc runEdges (ws ++ [x]) (accept c (0 + ws.length) s)
    _ = runEdges [x] (accept c 0 s) := runEdges_accept_append hws [x] c 0 s
    _ = .next t := runEdges_cons_of_next (hedge.trans ht) []
    _ = completeCommand (accept c 0 s) := ht.symm

/-- Settles O22: the accepting edge leaves `accept`, every edge of the wait leaves `accept` with one edge less to wait, and the last
edge completes what `step` completes. -/
theorem clockEdgesRefineTheStep : Obligations.ClockEdgesRefineTheStep := by
  rintro s ⟨_, _⟩ p l es hrst hf hidle hc hr hv rfl rfl hes hlen
  have haccept := clockEdge_accept l hr hv ((cmdReady_iff s).mpr ⟨hidle, hf⟩)
  have hlat : l % Config.latMax < Config.latMax := Nat.mod_lt l (Nat.succ_pos _)
  refine ⟨?_, by omega, fun n hn => ?_⟩
  · calc runEdges ((p, l) :: es) s
      _ = runEdges es (accept ⟨p.cmd, p.wdata⟩ (l % Config.latMax) s) := runEdges_cons_of_next haccept es
      _ = completeCommand (accept ⟨p.cmd, p.wdata⟩ 0 s) := runEdges_accept_complete hes _ hlen s
      _ = step s := (step_presented hrst hf hidle hc).symm
  · have hle : (es.take n).length ≤ l % Config.latMax := by
      rw [List.length_take]
      omega
    obtain ⟨w, hw⟩ := Nat.exists_eq_add_of_le' hle
    have hrsts : ∀ x ∈ es.take n, x.1.rst = none := fun x hx => hes x (List.mem_of_mem_take hx)
    rw [hw] at haccept
    have hwait := (runEdges_cons_of_next haccept (es.take n)).trans (runEdges_accept_wait hrsts _ w s)
    exact ⟨_, hwait, accept_unready_frame _ w s⟩

end Sys2Proof.Machine
end

section
/-!
PROOFS. Encoding (30_encoding.md): the decoder as one condition on a word (the row of R76 and the operands read from it), its
inverse the encoder, the illegal words of R78 and R79, the immediates of R75, and the assembler of R81 to R83.
-/

namespace Sys2Proof

open Laws.RowMatch

/-! ### The decoder as one condition on the word -/

/-- The command of the row of `i` with the operands that stand in `w` (R72 to R75). -/
def Instr.readFrom (w : CmdWord) : Instr → Instr
  | .li _ _ => .li (vdOf w) (imm14Of w)
  | .lxi _ _ _ => .lxi (vdOf w) (w.getLsbD 14) (imm14Of w)
  | .ldc _ => .ldc (vdOf w)
  | .ldx _ => .ldx (vdOf w)
  | .stc _ => .stc (vs1Of w)
  | .stx _ => .stx (vs1Of w)
  | .mov _ _ => .mov (vdOf w) (vs1Of w)
  | .rdf => .rdf
  | .add _ _ _ => .add (vdOf w) (vs1Of w) (vs2Of w)
  | .sub _ _ _ => .sub (vdOf w) (vs1Of w) (vs2Of w)
  | .mul _ _ _ => .mul (vdOf w) (vs1Of w) (vs2Of w)
  | .divmod _ _ _ _ => .divmod (vdOf w) (vd2Of w) (vs1Of w) (vs2Of w)
  | .cmp _ _ => .cmp (vs1Of w) (vs2Of w)
  | .scale _ _ _ => .scale (vdOf w) (vs1Of w) (w.extractLsb' 0 7)
  | .digits _ _ => .digits (vdOf w) (vs1Of w)
  | .round _ _ => .round (vdOf w) (vs1Of w)

/-- `w` has the opcode of the row of `i` and passes the row's test (R76). -/
def InRow (i : Instr) (w : CmdWord) : Prop := opcodeOf w = (rowOf i).1 ∧ w &&& (rowOf i).2.2 = (rowOf i).2.1

theorem readFrom_of_decode {w : CmdWord} {i : Instr} (h : decode w = .ok i) : i.readFrom w = i := by
  unfold decode at h
  split at h
  case h_12 =>
    obtain ⟨-, -, rfl⟩ := divmodRow_eq_ok h
    rfl
  case h_17 => cases h
  all_goals
    obtain ⟨-, rfl⟩ := matchRow_eq_ok h
    rfl

/-- A word in a row decodes to the row's command, unless that is a `DIVMOD` with one destination twice (R78, R80). -/
theorem decode_of_inRow {i : Instr} {w : CmdWord} (hr : InRow i w) (hwf : (i.readFrom w).wellFormed = true) :
    decode w = .ok (i.readFrom w) := by
  obtain ⟨hop, htest⟩ := hr
  unfold decode
  rw [hop]
  cases i with
  | divmod =>
    have hd : vdOf w ≠ vd2Of w := by simpa [Instr.readFrom, Instr.wellFormed] using hwf
    have hm : ∀ j, matchRow w 0xFC003FFF 0x4C000000 j = .ok j := fun _ => if_pos htest
    change (matchRow w 0xFC003FFF 0x4C000000 _ >>= requireDistinct (vdOf w) (vd2Of w)) = _
    rw [hm]
    exact if_neg hd
  | li | lxi | ldc | ldx | stc | stx | mov | rdf | add | sub | mul | cmp | scale | digits | round => exact if_pos htest

/-! ### The round trip from commands (O2) -/

theorem inRow_encode (i : Instr) : InRow i (encode i) :=
  match i with
  | .li d imm => Laws.RowMatch.li d imm
  | .lxi d neg e => Laws.RowMatch.lxi d neg e
  | .ldc d => Laws.RowMatch.ldc d
  | .ldx d => Laws.RowMatch.ldx d
  | .stc a => Laws.RowMatch.stc a
  | .stx a => Laws.RowMatch.stx a
  | .mov d a => Laws.RowMatch.mov d a
  | .rdf => Laws.RowMatch.rdf
  | .add d a b => Laws.RowMatch.add d a b
  | .sub d a b => Laws.RowMatch.sub d a b
  | .mul d a b => Laws.RowMatch.mul d a b
  | .divmod q r a b => Laws.RowMatch.divmod q r a b
  | .cmp a b => Laws.RowMatch.cmp a b
  | .scale d a n => Laws.RowMatch.scale d a n
  | .digits d a => Laws.RowMatch.digits d a
  | .round d a => Laws.RowMatch.round d a

theorem readFrom_encode (i : Instr) : i.readFrom (encode i) = i := by
  cases i with
  | lxi => simp only [Instr.readFrom, encode, vdOf_formatX, sign_formatX, imm14Of_formatX]
  | li | ldc | ldx | stc | stx | mov | rdf | add | sub | mul | divmod | cmp | scale | digits | round =>
    simp [Instr.readFrom, encode]

/-- Settles O2: the encoded word is in its command's row, and the operands stand in it where the decoder reads them. -/
theorem decodeInvertsEncode : Obligations.DecodeInvertsEncode := by
  intro i hwf
  have hread := readFrom_encode i
  calc decode (encode i) = .ok (i.readFrom (encode i)) := decode_of_inRow (inRow_encode i) (hread.symm ▸ hwf)
    _ = .ok i := by rw [hread]

/-! ### The round trip from words (O3) -/

/-- The words agree in the bits where `m` is 1. -/
def AgreeOn (m w w' : CmdWord) : Prop := w &&& m = w' &&& m

theorem AgreeOn.or {m n w w' : CmdWord} (hm : AgreeOn m w w') (hn : AgreeOn n w w') : AgreeOn (m ||| n) w w' := by
  unfold AgreeOn at *
  rw [BitVec.and_or_distrib_left, hm, hn, BitVec.and_or_distrib_left]

theorem AgreeOn.eq {m w w' : CmdWord} (h : AgreeOn m w w') (hm : m = BitVec.allOnes 32) : w = w' := by
  subst hm
  simpa only [AgreeOn, BitVec.and_allOnes] using h

/-- The word with the bits `lo` to `lo + n - 1` set. -/
def fieldMask (lo n : Nat) : CmdWord := (BitVec.allOnes n).setWidth 32 <<< lo

theorem agreeOn_field {w w' : CmdWord} {lo n : Nat} (h : w.extractLsb' lo n = w'.extractLsb' lo n) :
    AgreeOn (fieldMask lo n) w w' := by
  apply BitVec.eq_of_getLsbD_eq
  intro k hk
  by_cases hin : lo ≤ k ∧ k - lo < n
  · have hbit := congrArg (·.getLsbD (k - lo)) h
    simp only [BitVec.getLsbD_extractLsb', hin.2, Nat.add_sub_cancel' hin.1, decide_true, Bool.true_and] at hbit
    rw [BitVec.getLsbD_and, BitVec.getLsbD_and, hbit]
  · have hout : (fieldMask lo n).getLsbD k = false := by
      simp [fieldMask]
      omega
    rw [BitVec.getLsbD_and, BitVec.getLsbD_and, hout, Bool.and_false, Bool.and_false]

theorem agreeOn_slotField {w w' : CmdWord} {lo : Nat} (h : slotField w lo = slotField w' lo) :
    AgreeOn (fieldMask lo 3) w w' :=
  agreeOn_field (BitVec.toFin_inj.mp h)

theorem agreeOn_bit {w w' : CmdWord} {k : Nat} (h : w.getLsbD k = w'.getLsbD k) : AgreeOn (fieldMask k 1) w w' :=
  agreeOn_field (BitVec.eq_of_getLsbD_eq fun j hj => by
    obtain rfl : j = 0 := by omega
    simpa using h)

/-- The mask of a row and the fields its command reads are all 32 bits: a word of the row is fixed by its operands (R71, R78). -/
theorem eq_of_inRow {i : Instr} {w w' : CmdWord} (hw : InRow i w) (hw' : InRow i w') (h : i.readFrom w = i.readFrom w') :
    w = w' := by
  have hm : AgreeOn (rowOf i).2.2 w w' := hw.2.trans hw'.2.symm
  cases i <;> simp only [rowOf] at hm
  case li =>
    obtain ⟨hd, himm⟩ := Instr.li.inj h
    exact ((hm.or (agreeOn_slotField hd)).or (agreeOn_field himm)).eq (by decide)
  case lxi =>
    obtain ⟨hd, hs, he⟩ := Instr.lxi.inj h
    exact (((hm.or (agreeOn_slotField hd)).or (agreeOn_bit hs)).or (agreeOn_field he)).eq (by decide)
  case ldc | ldx | stc | stx =>
    injection h with ha
    exact (hm.or (agreeOn_slotField ha)).eq (by decide)
  case mov | cmp | digits | round =>
    injection h with ha hb
    exact ((hm.or (agreeOn_slotField ha)).or (agreeOn_slotField hb)).eq (by decide)
  case rdf => exact hm.eq (by decide)
  case add | sub | mul =>
    injection h with hd ha hb
    exact (((hm.or (agreeOn_slotField hd)).or (agreeOn_slotField ha)).or (agreeOn_slotField hb)).eq (by decide)
  case divmod =>
    obtain ⟨hq, hr, ha, hb⟩ := Instr.divmod.inj h
    exact ((((hm.or (agreeOn_slotField hq)).or (agreeOn_slotField hr)).or (agreeOn_slotField ha)).or
      (agreeOn_slotField hb)).eq (by decide)
  case scale =>
    obtain ⟨hd, ha, hn⟩ := Instr.scale.inj h
    exact (((hm.or (agreeOn_slotField hd)).or (agreeOn_slotField ha)).or (agreeOn_field hn)).eq (by decide)

/-- Settles O3: the word and the encoding of its command are in one row and hold the same operands. -/
theorem encodeInvertsDecode : Obligations.EncodeInvertsDecode := by
  intro w i h
  obtain ⟨hwf, hop, htest⟩ := decode_sound h
  have hread : i.readFrom (encode i) = i.readFrom w := (readFrom_encode i).trans (readFrom_of_decode h).symm
  exact ⟨hwf, eq_of_inRow (inRow_encode i) ⟨hop, htest⟩ hread⟩

/-! ### Illegal words and words written out (O4, O5, O1) -/

theorem rowOf_mem_opcodeMap (i : Instr) : rowOf i ∈ opcodeMap := by
  cases i <;> simp [rowOf, opcodeMap]

theorem exists_rowOf_eq_of_mem {r : BitVec 6 × CmdWord × CmdWord} (h : r ∈ opcodeMap) : ∃ i, rowOf i = r := by
  have hrows : opcodeMap = [Instr.li 0 0, .lxi 0 false 0, .ldc 0, .ldx 0, .stc 0, .stx 0, .mov 0 0, .rdf, .add 0 0 0, .sub 0 0 0,
      .mul 0 0 0, .divmod 0 0 0 0, .cmp 0 0, .scale 0 0 0, .digits 0 0, .round 0 0].map rowOf := rfl
  rw [hrows] at h
  obtain ⟨i, -, hi⟩ := List.mem_map.mp h
  exact ⟨i, hi⟩

theorem opcodeMap_row_unique {r r' : BitVec 6 × CmdWord × CmdWord} (h : r ∈ opcodeMap) (h' : r' ∈ opcodeMap)
    (hop : r.1 = r'.1) : r = r' := by
  have hnodup : (opcodeMap.map Prod.fst).Nodup := by decide
  exact List.inj_on_of_nodup_map hnodup h h' hop

/-- No row has one of the values R79 lists. -/
theorem rowOf_op_assigned (i : Instr) :
    (rowOf i).1.toNat ≠ 0x00 ∧ ¬(0x09 ≤ (rowOf i).1.toNat ∧ (rowOf i).1.toNat ≤ 0x0F) ∧ (rowOf i).1.toNat ≠ 0x17
      ∧ ¬0x19 ≤ (rowOf i).1.toNat := by
  cases i <;> simp [rowOf]

/-- Settles O5: the opcode of a legal word is that of a row, and no row has an unassigned one. -/
theorem unassignedOpcodesAreIllegal : Obligations.UnassignedOpcodesAreIllegal := by
  intro w hw i h
  obtain ⟨-, hop, -⟩ := decode_sound h
  obtain ⟨h00, h09, h17, h19⟩ := rowOf_op_assigned i
  rw [← hop] at h00 h09 h17 h19
  obtain h | h | h | h := hw
  exacts [h00 h, h09 h, h17 h, h19 h]

/-- The word is a `DIVMOD` with `vd = vd2` (R78 (c)). -/
def SameDestination (w : CmdWord) : Prop := opcodeOf w = 0x13 ∧ w.extractLsb' 23 3 = w.extractLsb' 14 3

theorem wellFormed_readFrom_iff {i : Instr} {w : CmdWord} (hop : opcodeOf w = (rowOf i).1) :
    (i.readFrom w).wellFormed = true ↔ ¬SameDestination w := by
  unfold SameDestination
  rw [hop]
  cases i with
  | divmod =>
    have hslots : vdOf w = vd2Of w ↔ w.extractLsb' 23 3 = w.extractLsb' 14 3 := BitVec.toFin_inj
    simp [Instr.readFrom, Instr.wellFormed, rowOf, hslots]
  | li | lxi | ldc | ldx | stc | stx | mov | rdf | add | sub | mul | cmp | scale | digits | round =>
    simp [Instr.readFrom, Instr.wellFormed, rowOf]

/-- A word is legal exactly when it is in a row and is no `DIVMOD` with one destination twice (R78). -/
theorem decodes_iff (w : CmdWord) : (∃ i, decode w = .ok i) ↔ (∃ i, InRow i w) ∧ ¬SameDestination w := by
  constructor
  · rintro ⟨i, h⟩
    obtain ⟨hwf, hop, htest⟩ := decode_sound h
    rw [← readFrom_of_decode h, wellFormed_readFrom_iff hop] at hwf
    exact ⟨⟨i, hop, htest⟩, hwf⟩
  · rintro ⟨⟨i, hr⟩, hd⟩
    exact ⟨_, decode_of_inRow hr ((wellFormed_readFrom_iff hr.1).mpr hd)⟩

/-- An opcode stands in at most one row, so a word whose row's test fails is in no other row. -/
theorem not_inRow_iff (w : CmdWord) :
    (¬∃ i, InRow i w) ↔ (∀ r ∈ opcodeMap, opcodeOf w ≠ r.1) ∨ ∃ r ∈ opcodeMap, opcodeOf w = r.1 ∧ w &&& r.2.2 ≠ r.2.1 := by
  constructor
  · intro h
    by_cases hop : ∃ r ∈ opcodeMap, opcodeOf w = r.1
    · obtain ⟨r, hr, hop⟩ := hop
      obtain ⟨i, rfl⟩ := exists_rowOf_eq_of_mem hr
      exact .inr ⟨_, hr, hop, fun htest => h ⟨i, hop, htest⟩⟩
    · exact .inl fun r hr heq => hop ⟨r, hr, heq⟩
  · rintro (h | ⟨r, hr, hop, htest⟩) ⟨i, hi⟩
    · exact h _ (rowOf_mem_opcodeMap i) hi.1
    · obtain rfl := opcodeMap_row_unique (rowOf_mem_opcodeMap i) hr (hi.1.symm.trans hop)
      exact htest hi.2

theorem illegal_iff (w : CmdWord) :
    (∀ i, decode w ≠ .ok i) ↔
      (∀ r ∈ opcodeMap, opcodeOf w ≠ r.1) ∨ (∃ r ∈ opcodeMap, opcodeOf w = r.1 ∧ w &&& r.2.2 ≠ r.2.1) ∨ SameDestination w := by
  rw [← not_exists, decodes_iff, not_and_or, not_inRow_iff, not_not, or_assoc]

/-- Settles O4: legal is in a row and not a `DIVMOD` with one destination twice; 0x00 and 0x3F are unassigned opcodes. -/
theorem illegalWordsAreExactlyTheUnmatched : Obligations.IllegalWordsAreExactlyTheUnmatched := by
  refine ⟨illegal_iff, unassignedOpcodesAreIllegal _ (by decide), unassignedOpcodesAreIllegal _ (by decide), fun s h => ?_⟩
  rw [Machine.completeCommand_of_illegal h]
  exact Machine.raise_faultEntered _ s

/-- Settles O1, by evaluating the decoder on each of the nineteen words. -/
theorem specWordsDecodeAsWritten : Obligations.SpecWordsDecodeAsWritten :=
  ⟨rfl, rfl, rfl, rfl, rfl, rfl, rfl, rfl, rfl, rfl, rfl, rfl, rfl, rfl, rfl, rfl, rfl, rfl, rfl⟩

/-! ### Immediates (O6) -/

theorem imm14Of_toNat (w : CmdWord) : (imm14Of w).toNat = w.toNat % 2 ^ 14 := by
  rw [imm14Of, BitVec.extractLsb'_toNat, Nat.shiftRight_zero]

theorem imm14Of_msb (w : CmdWord) : (imm14Of w).msb = w.getLsbD 13 := by
  rw [BitVec.msb_eq_getLsbD_last, imm14Of, BitVec.getLsbD_extractLsb']
  rfl

/-- The bits between `SCALE`'s slot fields and its count are 0, since the word is the encoding of the command (O3). -/
theorem scale_reserved_eq_zero {w : CmdWord} {d a : SlotIx} {n : BitVec 7} (h : decode w = .ok (.scale d a n)) :
    w.toNat / 2 ^ 7 % 2 ^ 7 = 0 := by
  obtain ⟨-, rfl⟩ := encodeInvertsDecode _ _ h
  have hn := n.isLt
  rw [encode, formatI_toNat, toNat_append_eq, BitVec.toNat_ofNat]
  omega

theorem zextImm_toNat (imm : BitVec 14) : (Machine.zextImm imm).toNat = imm.toNat :=
  BitVec.toNat_setWidth_of_le (by decide)

theorem sextImm_toInt (e : BitVec 14) : (Machine.sextImm e).toInt = e.toInt :=
  BitVec.toInt_signExtend_of_le (by decide)

/-- Two's complement: the top bit of the field weighs `-2^14` beside the field as a plain number (R75). -/
theorem sextImm_imm14Of_toInt (w : CmdWord) :
    (Machine.sextImm (imm14Of w)).toInt = ((w.toNat % 2 ^ 14 : Nat) : Int) - if w.getLsbD 13 then (2 : Int) ^ 14 else (0 : Int) := by
  rw [sextImm_toInt, BitVec.toInt_eq_msb_cond, imm14Of_msb, imm14Of_toNat]
  split
  · rfl
  · rw [Int.sub_zero]

/-- Settles O6: a legal word's operands are the ones the decoder's field readers give. -/
theorem immediatesAreExtendedAsStated : Obligations.ImmediatesAreExtendedAsStated := by
  intro w
  refine ⟨fun d imm h => ?_, fun d a n h => ?_, fun d neg e h => ?_⟩
  · obtain ⟨rfl, rfl⟩ := Instr.li.inj (readFrom_of_decode h)
    exact ⟨(zextImm_toNat _).trans (imm14Of_toNat w), slotField_val w 23⟩
  · have hreserved := scale_reserved_eq_zero h
    obtain ⟨rfl, rfl, rfl⟩ := Instr.scale.inj (readFrom_of_decode h)
    have hn : (w.extractLsb' 0 7).toNat = w.toNat % 2 ^ 7 := by rw [BitVec.extractLsb'_toNat, Nat.shiftRight_zero]
    exact ⟨hn, hreserved, slotField_val w 23, slotField_val w 20⟩
  · obtain ⟨rfl, rfl, rfl⟩ := Instr.lxi.inj (readFrom_of_decode h)
    have hlo := (imm14Of w).le_toInt
    have hhi := (imm14Of w).toInt_le
    rw [← sextImm_toInt] at hlo hhi
    exact ⟨rfl, slotField_val w 23, hlo, hhi, sextImm_imm14Of_toInt w⟩

end Sys2Proof

namespace Sys2Proof.Machine

open Sys2Proof

/-! ### Operands and commands (O53) -/

theorem readMnemonic_mnemonicText (m : Mnemonic) : readMnemonic (mnemonicText m) = some m := by
  cases m <;> rfl

theorem unsignedImm_decimal_toNat {w : Nat} (v : BitVec w) : unsignedImm w (.decimal v.toNat) = some v := by
  simp [unsignedImm, v.isLt]

theorem signedImm_signed_toInt (v : BitVec 14) : signedImm (.signed v.toInt) = some v := by
  have hlo := v.le_toInt
  have hhi := v.toInt_le
  simp only [signedImm, BitVec.ofInt_toInt]
  exact if_pos ⟨by omega, by omega⟩

/-- The operands of R82 assemble to their command; a `DIVMOD` needs its two destinations different. -/
theorem assemble_operandsOf {i : Instr} (h : i.wellFormed = true) : assemble (mnemonicOf i) (operandsOf i) = some [i] := by
  cases i with
  | li => simp [mnemonicOf, operandsOf, assemble, unsignedImm_decimal_toNat]
  | lxi => simp [mnemonicOf, operandsOf, assemble, signedImm_signed_toInt]
  | scale => simp [mnemonicOf, operandsOf, assemble, unsignedImm_decimal_toNat]
  | divmod q r =>
    have hqr : q ≠ r := by simpa [Instr.wellFormed] using h
    exact if_neg hqr
  | ldc | ldx | stc | stx | mov | rdf | add | sub | mul | cmp | digits | round => rfl

/-- Settles O53: mnemonics read back, and immediates survive as numerals. -/
theorem assemblingTheOperandsGivesTheCommand : Obligations.AssemblingTheOperandsGivesTheCommand :=
  fun i h => ⟨readMnemonic_mnemonicText (mnemonicOf i), assemble_operandsOf h⟩

/-! ### Pseudo-commands and constants (O54) -/

/-- `LI` completes with its one write made (R170). -/
theorem exec_li_next (d : SlotIx) (imm : BitVec 14) (s : State) :
    ∃ t, exec (.li d imm) s = .next t ∧ ∀ j, t.slot j = (s.setC d (zextImm imm)).slot j := by
  obtain ⟨t, ht, -, hslot, -⟩ := respond_spec (s := s) (u := s.setC d (zextImm imm)) 0 rfl rfl ⟨rfl, rfl, rfl, rfl⟩
  exact ⟨t, ht, hslot⟩

/-- `LXI` completes with its one write made (R171). -/
theorem exec_lxi_next (d : SlotIx) (neg : Bool) (e : BitVec 14) (s : State) :
    ∃ t, exec (.lxi d neg e) s = .next t ∧ ∀ j, t.slot j = (s.setAux d (sextImm e) neg .finite).slot j := by
  obtain ⟨t, ht, -, hslot, -⟩ :=
    respond_spec (s := s) (u := s.setAux d (sextImm e) neg .finite) 0 rfl rfl ⟨rfl, rfl, rfl, rfl⟩
  exact ⟨t, ht, hslot⟩

/-- `LI` and then `LXI` on one slot set all four of its fields, and no other slot (R170, R171). -/
theorem exec_li_lxi_next (d : SlotIx) (imm : BitVec 14) (neg : Bool) (e : BitVec 14) (s : State) :
    ∃ t u, exec (.li d imm) s = .next t ∧ exec (.lxi d neg e) t = .next u
      ∧ u.slot d = ⟨zextImm imm, sextImm e, neg, .finite⟩ ∧ OtherSlotsKept s u d := by
  obtain ⟨t, ht, htslot⟩ := exec_li_next d imm s
  obtain ⟨u, hu, huslot⟩ := exec_lxi_next d neg e t
  refine ⟨t, u, ht, hu, ?_, fun j hj => ?_⟩
  · simp [huslot, State.slot_setAux, htslot]
  · rw [huslot, State.setAux_slot_of_ne t hj, htslot, State.slot_setC_of_ne s hj]

/-- Settles O54: the expansions are `LI` and `LXI`, whose effects compose. -/
theorem pseudoCommandsBuildTheConstants : Obligations.PseudoCommandsBuildTheConstants := by
  intro d neg s
  refine ⟨?_, ?_, ?_⟩
  · obtain ⟨t, ht, hslot⟩ := exec_li_next d 0 s
    exact ⟨t, rfl, ht, wroteC_setC hslot⟩
  · obtain ⟨t, u, ht, hu, hd, hothers⟩ := exec_li_lxi_next d 0 neg 0 s
    exact ⟨t, u, rfl, ht, hu, hd, hothers⟩
  · obtain ⟨t, u, ht, hu, hd, hothers⟩ := exec_li_lxi_next d 1 false 0 s
    exact ⟨t, u, rfl, ht, hu, hd, hothers⟩

end Sys2Proof.Machine
end

section
/-!
PROOFS. Wide-integer arithmetic (40_wide_arith.md): the digit count of R103, what each of `ADD`, `SUB`, `CMP`, `MUL`, `DIVMOD`, `SCALE`,
`DIGITS` writes or raises (R110 to R128), and what one of them undoes of another (R130).
-/

namespace Sys2Proof.Machine

open Sys2Proof

/-! ### The digit count (O39) -/

theorem digitCount_zero : digitCount 0 = 1 :=
  le_antisymm ((digitCount_le_iff 0 le_rfl).mpr (by norm_num)) (digitCount_pos 0)

theorem lt_pow_digitCount (v : Nat) : v < 10 ^ digitCount v :=
  (digitCount_le_iff v (digitCount_pos v)).mp le_rfl

/-- Of a nonzero number this holds also of the power `10^0`, which `lt_digitCount_iff` leaves out. -/
theorem pow_le_iff_lt_digitCount {v : Nat} (hv : 1 ≤ v) (k : Nat) : 10 ^ k ≤ v ↔ k < digitCount v := by
  cases k with
  | zero => exact iff_of_true hv (digitCount_pos v)
  | succ k => exact (lt_digitCount_iff v (Nat.le_add_left 1 k)).symm

theorem eq_digitCount_iff {v : Nat} (hv : 1 ≤ v) (d : Nat) :
    (1 ≤ d ∧ 10 ^ (d - 1) ≤ v ∧ v < 10 ^ d) ↔ d = digitCount v := by
  constructor
  · rintro ⟨hd, hlow, hhigh⟩
    have hle : digitCount v ≤ d := (digitCount_le_iff v hd).mpr hhigh
    have hlt : d - 1 < digitCount v := (pow_le_iff_lt_digitCount hv _).mp hlow
    omega
  · rintro rfl
    have hpos := digitCount_pos v
    exact ⟨hpos, (pow_le_iff_lt_digitCount hv _).mpr (by omega), lt_pow_digitCount v⟩

/-- Settles O39: the bounds on `v` are bounds on the count. -/
theorem digitCountIsTheUniqueCount : Obligations.DigitCountIsTheUniqueCount :=
  ⟨digitCount_zero, fun _ => eq_digitCount_iff⟩

/-- Multiplying by `10^n` appends `n` digits: both bounds of the count are multiplied by `10^n` (R130). -/
theorem digitCount_mul_pow {a : Nat} (ha : 1 ≤ a) (n : Nat) : digitCount (a * 10 ^ n) = digitCount a + n := by
  obtain ⟨hpos, hlow, hhigh⟩ := (eq_digitCount_iff ha _).mpr rfl
  have hscaled : 1 ≤ a * 10 ^ n := Nat.mul_pos ha (by positivity)
  refine ((eq_digitCount_iff hscaled _).mp ⟨by omega, ?_, ?_⟩).symm
  · calc 10 ^ (digitCount a + n - 1) = 10 ^ (digitCount a - 1) * 10 ^ n := by rw [← pow_add, Nat.sub_add_comm hpos]
      _ ≤ a * 10 ^ n := Nat.mul_le_mul_right _ hlow
  · calc a * 10 ^ n < 10 ^ digitCount a * 10 ^ n := Nat.mul_lt_mul_of_pos_right hhigh (by positivity)
      _ = 10 ^ (digitCount a + n) := (pow_add ..).symm

/-! ### Writing a coefficient -/

theorem State.coeff_lt (s : State) (i : SlotIx) : s.coeff i < 2 ^ 256 := (s.slot i).c.isLt

theorem State.coeff_setC (s : State) (i j : SlotIx) {v : Nat} (hv : v < 2 ^ 256) :
    (s.setC i (BitVec.ofNat 256 v)).coeff j = if j = i then v else s.coeff j := by
  unfold State.coeff
  split
  · next h => simp only [h, State.slot_setC_self, BitVec.toNat_ofNat, Nat.mod_eq_of_lt hv]
  · next h => rw [State.slot_setC_of_ne s h]

/-- A command that writes one coefficient and no flag is an exact write that leaves the flags. -/
theorem respond_setC_of_lt (s : State) (d : SlotIx) {v : Nat} (hv : v < 2 ^ 256) :
    ∃ t, respond 0 (s.setC d (BitVec.ofNat 256 v)) = .next t ∧ Completed s t 0 ∧ WroteC s t d v ∧ t.flags = s.flags := by
  have hexact : writeExact d v s.flags s = respond 0 (s.setC d (BitVec.ofNat 256 v)) := if_neg (Nat.not_le.mpr hv)
  exact hexact ▸ writeExact_of_lt hv

theorem WroteC.coeff_eq {s t : State} {d : SlotIx} {v : Nat} (h : WroteC s t d v) (j : SlotIx) :
    t.coeff j = if j = d then v else s.coeff j := by
  obtain ⟨hd, -, hothers⟩ := h
  split
  · next hj => rw [hj, hd]
  · next hj => rw [State.coeff, hothers j hj, State.coeff]

/-- An exact write that shows a response is one that fitted: the other one is a fault (R102, R203). -/
theorem writeExact_wroteC {vd : SlotIx} {v : Nat} {f : Flags} {s t : State} (h : writeExact vd v f s = .next t)
    (hrsp : t.rsp ≠ none) : WroteC s t vd v := by
  rcases lt_or_ge v (2 ^ 256) with hlt | hle
  · obtain ⟨u, hu, -, hw, -⟩ := writeExact_of_lt (vd := vd) (f := f) (s := s) hlt
    obtain rfl : u = t := by simpa [hu] using h
    exact hw
  · obtain ⟨u, hu, -, -, -, -, hnone, -⟩ := writeExact_of_le (vd := vd) (f := f) (s := s) hle
    obtain rfl : u = t := by simpa [hu] using h
    exact absurd hnone hrsp

/-! ### The commands that write one exact result (O32, O35, O37, O33, O38) -/

/-- Settles O32: `ADD` is an exact write of the sum and of `CY`. -/
theorem addWritesTheExactSum : Obligations.AddWritesTheExactSum :=
  fun d a b => ⟨by simp [encode, formatR_toNat], fun _ => ⟨writeExact_of_lt, writeExact_of_le⟩⟩

/-- Settles O35: `MUL` is an exact write of the product. -/
theorem mulWritesTheExactProduct : Obligations.MulWritesTheExactProduct :=
  fun d a b => ⟨by simp [encode, formatR_toNat], fun _ => ⟨writeExact_of_lt, writeExact_of_le⟩⟩

/-- Settles O37: `SCALE` is an exact write of the multiple. -/
theorem scaleWritesTheExactMultiple : Obligations.ScaleWritesTheExactMultiple :=
  fun d a n => ⟨by rw [encode, formatI_toNat, toNat_append_eq]; simp, fun _ => ⟨writeExact_of_lt, writeExact_of_le⟩⟩

theorem exec_sub_of_le {s : State} {a b : SlotIx} (h : s.coeff b ≤ s.coeff a) (d : SlotIx) :
    ∃ t, exec (.sub d a b) s = .next t ∧ Completed s t 0 ∧ WroteC s t d (s.coeff a - s.coeff b) ∧ t.flags = s.flags := by
  have hexec : exec (.sub d a b) s = respond 0 (s.setC d (BitVec.ofNat 256 (s.coeff a - s.coeff b))) :=
    if_neg (Nat.not_lt.mpr h)
  rw [hexec]
  exact respond_setC_of_lt s d (lt_of_le_of_lt (Nat.sub_le ..) (s.coeff_lt a))

theorem exec_sub_of_lt {s : State} {a b : SlotIx} (h : s.coeff a < s.coeff b) (d : SlotIx) :
    ∃ t, exec (.sub d a b) s = .next t ∧ FaultEntered s t .operandOrder := by
  have hexec : exec (.sub d a b) s = raise .operandOrder s := if_pos h
  rw [hexec]
  exact raise_faultEntered _ s

/-- Settles O33: a difference is at most the first operand, so that it always fits. -/
theorem subWritesTheExactDifference : Obligations.SubWritesTheExactDifference :=
  fun d a b => ⟨by simp [encode, formatR_toNat], fun _ => ⟨(exec_sub_of_le · d), (exec_sub_of_lt · d)⟩⟩

theorem exec_digits_next (d a : SlotIx) (s : State) :
    ∃ t, exec (.digits d a) s = .next t ∧ Completed s t 0 ∧ WroteC s t d (digitCount (s.coeff a)) ∧ t.flags = s.flags :=
  respond_setC_of_lt s d (lt_of_le_of_lt (digitCount_coeff_le _) (by norm_num))

/-- Settles O38: the count written is that of R103, and a 256-bit value has at most 78 digits. -/
theorem digitsWritesTheDigitCount : Obligations.DigitsWritesTheDigitCount := by
  refine fun d a => ⟨by simp [encode, formatR_toNat], fun s => ?_⟩
  obtain ⟨t, ht, hc, hw, hf⟩ := exec_digits_next d a s
  refine ⟨t, _, ht, hc, hw, hf, digitCount_pos _, digitCount_coeff_le _, lt_pow_digitCount _, fun h => ?_, fun h => ?_⟩
  · rw [h, digitCount_zero]
  · obtain ⟨-, hlow, -⟩ := (eq_digitCount_iff (Nat.pos_of_ne_zero h) _).mpr rfl
    exact hlow

/-! ### The comparison (O34) -/

theorem exec_cmp_next (a b : SlotIx) (s : State) :
    ∃ t, exec (.cmp a b) s = .next t ∧ Completed s t 0 ∧ t.slots = s.slots
      ∧ t.flags = flagsAfterCmp s.flags (s.coeff a) (s.coeff b) :=
  respond_completed (u := s.setFlags (flagsAfterCmp s.flags (s.coeff a) (s.coeff b))) 0 rfl rfl ⟨rfl, rfl, rfl, rfl⟩

theorem flagsAfterCmp_eq_iff (f : Flags) (a b : Nat) : (flagsAfterCmp f a b).eq = true ↔ a = b := decide_eq_true_iff

theorem flagsAfterCmp_lt_iff (f : Flags) (a b : Nat) : (flagsAfterCmp f a b).lt = true ↔ a < b := decide_eq_true_iff

/-- Settles O34: the two flags are the compare's results, which exclude each other. -/
theorem cmpOrdersTheCoefficients : Obligations.CmpOrdersTheCoefficients := by
  refine fun a b => ⟨by simp [encode, formatR_toNat], fun s => ?_⟩
  obtain ⟨t, ht, hc, hs, hf⟩ := exec_cmp_next a b s
  refine ⟨t, ht, hc, hs, ?_⟩
  rw [hf]
  refine ⟨flagsAfterCmp_eq_iff .., flagsAfterCmp_lt_iff .., ?_, rfl, rfl, rfl, rfl⟩
  rw [flagsAfterCmp_eq_iff, flagsAfterCmp_lt_iff]
  omega

/-! ### The division (O36) -/

/-- The floor quotient and the remainder of the old source values; each is at most the dividend, so that it fits. -/
theorem exec_divmod_of_ne_zero {q r : SlotIx} (hqr : q ≠ r) (a : SlotIx) {b : SlotIx} {s : State} (hb : s.coeff b ≠ 0) :
    ∃ t, exec (.divmod q r a b) s = .next t ∧ Completed s t 0
      ∧ t.coeff q = s.coeff a / s.coeff b ∧ t.coeff r = s.coeff a % s.coeff b
      ∧ (∀ j, AuxKept s t j) ∧ (∀ j, j ≠ q → j ≠ r → t.slot j = s.slot j) ∧ t.flags = s.flags := by
  have hexec : exec (.divmod q r a b) s = respond 0 (slotWrites (.divmod q r a b) s) := (if_neg hqr).trans (if_neg hb)
  obtain ⟨t, ht, hc, hslot, hf, -⟩ := respond_spec (s := s) (u := slotWrites (.divmod q r a b) s) 0 rfl rfl ⟨rfl, rfl, rfl, rfl⟩
  have hcoeff : ∀ j, t.coeff j = (slotWrites (.divmod q r a b) s).coeff j := fun j => by rw [State.coeff, hslot, State.coeff]
  have hquot : s.coeff a / s.coeff b < 2 ^ 256 := lt_of_le_of_lt (Nat.div_le_self ..) (s.coeff_lt a)
  have hrem : s.coeff a % s.coeff b < 2 ^ 256 := lt_of_le_of_lt (Nat.mod_le ..) (s.coeff_lt a)
  refine ⟨t, hexec.trans ht, hc, ?_, ?_, fun j => ?_, fun j hjq hjr => ?_, hf⟩
  · rw [hcoeff, slotWrites, State.coeff_setC _ r q hrem, if_neg hqr, State.coeff_setC s q q hquot, if_pos rfl]
  · rw [hcoeff, slotWrites, State.coeff_setC _ r r hrem, if_pos rfl]
  · simp [AuxKept, hslot, slotWrites]
  · simp [hslot, slotWrites, hjq, hjr]

theorem exec_divmod_of_eq_zero {q r : SlotIx} (hqr : q ≠ r) (a : SlotIx) {b : SlotIx} {s : State} (hb : s.coeff b = 0) :
    ∃ t, exec (.divmod q r a b) s = .next t ∧ FaultEntered s t .divideByZero := by
  have hexec : exec (.divmod q r a b) s = raise .divideByZero s := (if_neg hqr).trans (if_pos hb)
  rw [hexec]
  exact raise_faultEntered _ s

/-- Settles O36: dividend, quotient and remainder are those of `Nat` division, and a decoded command is well-formed. -/
theorem divmodWritesQuotientAndRemainder : Obligations.DivmodWritesQuotientAndRemainder := by
  refine ⟨fun q r a b hqr => ⟨by simp [encode, formatR_toNat], fun s => ⟨fun hb => ?_, exec_divmod_of_eq_zero hqr a⟩⟩,
    fun w q r a b h => ?_⟩
  · obtain ⟨t, ht, hc, hquot, hrem, haux, hothers, hf⟩ := exec_divmod_of_ne_zero hqr a hb
    refine ⟨t, ht, hc, ?_, ?_, haux q, haux r, hothers, hf⟩
    · rw [hquot, hrem, Nat.div_add_mod']
    · rw [hrem]
      exact Nat.mod_lt _ (Nat.pos_of_ne_zero hb)
  · obtain ⟨hwf, -⟩ := decode_sound h
    simpa [Instr.wellFormed] using hwf

/-! ### What one command undoes of another (O40) -/

theorem sub_undoes_add {s t : State} {d a b : SlotIx} (x : SlotIx) (h : exec (.add d a b) s = .next t) (hrsp : t.rsp ≠ none) :
    ∃ u, exec (.sub x d b) t = .next u ∧ Completed t u 0 ∧ u.coeff x = if d = b then 0 else s.coeff a := by
  have hcoeff := (writeExact_wroteC h hrsp).coeff_eq
  have hd : t.coeff d = s.coeff a + s.coeff b := by rw [hcoeff, if_pos rfl]
  by_cases hdb : d = b
  · subst hdb
    obtain ⟨u, hu, hc, ⟨hx, -⟩, -⟩ := exec_sub_of_le (le_refl (t.coeff d)) x
    exact ⟨u, hu, hc, by rw [hx, if_pos rfl, Nat.sub_self]⟩
  · have hb : t.coeff b = s.coeff b := by rw [hcoeff, if_neg (Ne.symm hdb)]
    obtain ⟨u, hu, hc, ⟨hx, -⟩, -⟩ := exec_sub_of_le (s := t) (a := d) (b := b) (by omega) x
    exact ⟨u, hu, hc, by rw [hx, if_neg hdb, hd, hb, Nat.add_sub_cancel]⟩

/-- Dividing a multiple of the divisor gives the factor and no remainder. -/
theorem exec_divmod_of_eq_mul {t : State} {d b q r : SlotIx} {m : Nat} (hqr : q ≠ r) (hb : t.coeff b ≠ 0)
    (hd : t.coeff d = m * t.coeff b) :
    ∃ u, exec (.divmod q r d b) t = .next u ∧ Completed t u 0 ∧ u.coeff q = m ∧ u.coeff r = 0 := by
  obtain ⟨u, hu, hc, hquot, hrem, -⟩ := exec_divmod_of_ne_zero hqr d hb
  refine ⟨u, hu, hc, ?_, ?_⟩
  · rw [hquot, hd, Nat.mul_div_cancel _ (Nat.pos_of_ne_zero hb)]
  · rw [hrem, hd, Nat.mul_mod_left]

theorem divmod_undoes_mul {s t : State} {d a b q r : SlotIx} (hqr : q ≠ r) (h : exec (.mul d a b) s = .next t)
    (hrsp : t.rsp ≠ none) (hb : t.coeff b ≠ 0) :
    ∃ u, exec (.divmod q r d b) t = .next u ∧ Completed t u 0
      ∧ u.coeff q = (if d = b then 1 else s.coeff a) ∧ u.coeff r = 0 := by
  have hcoeff := (writeExact_wroteC h hrsp).coeff_eq
  apply exec_divmod_of_eq_mul hqr hb
  split
  · next hdb => rw [hdb, Nat.one_mul]
  · next hdb => rw [hcoeff, if_pos rfl, hcoeff, if_neg (Ne.symm hdb)]

theorem divmod_undoes_scale {s t : State} {d a b q r : SlotIx} {n : BitVec 7} (hqr : q ≠ r)
    (h : exec (.scale d a n) s = .next t) (hrsp : t.rsp ≠ none) (hb : t.coeff b = 10 ^ n.toNat) :
    ∃ u, exec (.divmod q r d b) t = .next u ∧ Completed t u 0 ∧ u.coeff q = s.coeff a ∧ u.coeff r = 0 := by
  obtain ⟨hd, -⟩ := writeExact_wroteC h hrsp
  have hne : t.coeff b ≠ 0 := hb ▸ (by positivity)
  exact exec_divmod_of_eq_mul hqr hne (hb ▸ hd)

theorem exec_add_comm (d a b : SlotIx) (s : State) : exec (.add d a b) s = exec (.add d b a) s := by
  simp only [exec, execAdd, Nat.add_comm]

theorem exec_mul_comm (d a b : SlotIx) (s : State) : exec (.mul d a b) s = exec (.mul d b a) s := by
  simp only [exec, execMul, Nat.mul_comm]

/-- Settles O40: a completed exact write gives the operands of the undoing command. -/
theorem arithmeticCommandsUndoEachOther : Obligations.ArithmeticCommandsUndoEachOther :=
  ⟨fun _ _ _ _ _ x => sub_undoes_add x, fun _ _ _ _ _ _ _ => divmod_undoes_mul, fun _ _ _ _ _ _ _ _ => divmod_undoes_scale,
    fun _ n ha => digitCount_mul_pow ha n, fun s d a b => ⟨exec_add_comm d a b s, exec_mul_comm d a b s⟩⟩

end Sys2Proof.Machine
end

section
/-!
PROOFS. The rounder (41_rounder.md): digit removal (R141), the precision stage (R143), what `ROUND` leaves (R142, R144 to R146), and
its identity on finished values and its nearness to the exact value (R148).
-/

namespace Sys2Proof.Machine

open Sys2Proof

/-! ### Digit removal (O42, O45) -/

theorem rhe_of_pos (v : Nat) {r : Nat} (hr : 1 ≤ r) :
    rhe v r = if 5 * 10 ^ (r - 1) < v % 10 ^ r then v / 10 ^ r + 1
      else if v % 10 ^ r = 5 * 10 ^ (r - 1) ∧ v / 10 ^ r % 2 = 1 then v / 10 ^ r + 1 else v / 10 ^ r :=
  if_neg (Nat.ne_of_gt hr)

/-- The tie rule without a special case at `r = 0`: down up to half a unit, up from half a unit on, even at half a unit (R141). -/
theorem rhe_down_or_up (v r : Nat) :
    ((rhe v r = v / 10 ^ r ∧ 2 * (v % 10 ^ r) ≤ 10 ^ r) ∨ (rhe v r = v / 10 ^ r + 1 ∧ 10 ^ r ≤ 2 * (v % 10 ^ r)))
      ∧ (2 * (v % 10 ^ r) = 10 ^ r → rhe v r % 2 = 0) := by
  cases r with
  | zero => simp [Nat.mod_one]
  | succ r =>
    have hhalf : 10 ^ (r + 1) = 2 * (5 * 10 ^ r) := by ring
    rw [rhe_of_pos v (Nat.le_add_left 1 r), Nat.add_sub_cancel]
    split_ifs <;> omega

/-- The distance of `v` from what is left: the remainder where it rounds down, the rest of the unit where it rounds up. -/
theorem abs_sub_rhe_mul (v r : Nat) :
    (|(v : Int) - rhe v r * 10 ^ r| = (v % 10 ^ r : Nat) ∧ 2 * (v % 10 ^ r) ≤ 10 ^ r)
      ∨ (|(v : Int) - rhe v r * 10 ^ r| = 10 ^ r - (v % 10 ^ r : Nat) ∧ 10 ^ r ≤ 2 * (v % 10 ^ r)) := by
  have hsplit : (v : Int) = (v / 10 ^ r : Nat) * 10 ^ r + (v % 10 ^ r : Nat) := by exact_mod_cast (Nat.div_add_mod' v (10 ^ r)).symm
  have hlt : ((v % 10 ^ r : Nat) : Int) < 10 ^ r := by exact_mod_cast Nat.mod_lt v (by positivity)
  obtain ⟨⟨hdown, hrem⟩ | ⟨hup, hrem⟩, -⟩ := rhe_down_or_up v r
  · have hd : (v : Int) - rhe v r * 10 ^ r = (v % 10 ^ r : Nat) := by rw [hdown]; linarith
    exact .inl ⟨by rw [hd, abs_of_nonneg (Int.natCast_nonneg _)], hrem⟩
  · have hd : (v : Int) - rhe v r * 10 ^ r = (v % 10 ^ r : Nat) - 10 ^ r := by rw [hup, Nat.cast_succ]; linarith
    exact .inr ⟨by rw [hd, abs_of_nonpos (by linarith), neg_sub], hrem⟩

/-- `x × 10^k` is at most half a unit of `10^k` away from `v`. -/
def WithinHalfUnit (v x k : Nat) : Prop := 2 * |(v : Int) - x * 10 ^ k| ≤ 10 ^ k

/-- Any other multiple is a whole unit or more away from `x × 10^k`, hence half a unit or more away from `v`. -/
theorem WithinHalfUnit.nearest {v x k : Nat} (h : WithinHalfUnit v x k) (m : Nat) :
    |(v : Int) - x * 10 ^ k| ≤ |(v : Int) - m * 10 ^ k| := by
  obtain rfl | hne := eq_or_ne m x
  · exact le_rfl
  · have hunit : (10 : Int) ^ k ≤ |(m : Int) * 10 ^ k - x * 10 ^ k| := by
      rw [← sub_mul, abs_mul, abs_of_pos (by positivity : (0 : Int) < 10 ^ k)]
      exact le_mul_of_one_le_left (by positivity) (Int.one_le_abs (by omega))
    have htriangle := abs_sub_le ((m : Int) * 10 ^ k) v (x * 10 ^ k)
    rw [abs_sub_comm _ (v : Int)] at htriangle
    unfold WithinHalfUnit at h
    omega

/-- The zero at the end of `10 × x` can go too. -/
theorem WithinHalfUnit.of_ten_mul {v x k : Nat} (h : WithinHalfUnit v (10 * x) k) : WithinHalfUnit v x (k + 1) := by
  have hmul : (x : Int) * 10 ^ (k + 1) = (10 * x : Nat) * 10 ^ k := by push_cast; ring
  have hunit : (10 : Int) ^ k ≤ 10 ^ (k + 1) := pow_le_pow_right₀ (by norm_num) (Nat.le_succ k)
  unfold WithinHalfUnit at h ⊢
  rw [hmul]
  exact h.trans hunit

theorem withinHalfUnit_rhe (v r : Nat) : WithinHalfUnit v (rhe v r) r := by
  have hcast : ((10 ^ r : Nat) : Int) = 10 ^ r := by norm_cast
  unfold WithinHalfUnit
  obtain ⟨hd, hrem⟩ | ⟨hd, hrem⟩ := abs_sub_rhe_mul v r <;> omega

/-- At exactly half a unit the remainder is exactly half of `10^r`. -/
theorem rhe_even_of_tie {v r : Nat} (h : 2 * |(v : Int) - rhe v r * 10 ^ r| = 10 ^ r) : rhe v r % 2 = 0 := by
  have hcast : ((10 ^ r : Nat) : Int) = 10 ^ r := by norm_cast
  obtain ⟨-, heven⟩ := rhe_down_or_up v r
  refine heven ?_
  obtain ⟨hd, hrem⟩ | ⟨hd, hrem⟩ := abs_sub_rhe_mul v r <;> omega

/-- Settles O42: nearest, because within half a unit; the rest is the rule by cases. -/
theorem digitRemovalRoundsHalfEven : Obligations.DigitRemovalRoundsHalfEven := by
  refine fun v r => ⟨?_, rhe_of_pos v, (withinHalfUnit_rhe v r).nearest, rhe_even_of_tie, ?_, rhe_le v r, ?_⟩
  · rintro rfl
    exact rhe_zero v
  · intro hv
    cases r with
    | zero => rw [rhe_zero]; omega
    | succ r => exact rhe_eq_zero (Nat.le_add_left 1 r) hv
  · intro hzeros
    rw [rhe_exact hzeros, Nat.div_mul_cancel (Nat.dvd_of_mod_eq_zero hzeros)]

/-- Settles O45: at `k = 34` the coefficient is the whole remainder of the tie rule. -/
theorem deficitShiftReachesZero : Obligations.DeficitShiftReachesZero := by
  intro c hle
  have hc : c < 10 ^ 34 := by omega
  refine ⟨fun k hk => ?_, ?_, fun k => rhe_le_of_pos hc⟩
  · rw [← deficitShift_eq_rhe hc, deficitShift, if_pos hk]
  · rw [rhe_of_pos c (by norm_num), Nat.div_eq_of_lt hc, Nat.mod_eq_of_lt hc]
    simp

/-! ### The precision stage (O43) -/

/-- The relation of the statements is the model's function. -/
theorem afterPrecisionStage_iff (c : Nat) (e : Int) (c1 : Nat) (e1 : Int) :
    AfterPrecisionStage c e c1 e1 ↔ precisionStage c e = (c1, e1) := by
  simp only [AfterPrecisionStage, precisionStage, Config.precision]
  split_ifs with hdigits hcarry
  · simp [hdigits, hcarry, Nat.not_le.mpr, eq_comm]
  · simp [hdigits, hcarry, Nat.not_lt.mp, eq_comm]
  · simp [hdigits, Nat.not_lt.mp, eq_comm]

theorem afterPrecisionStage_self (c : Nat) (e : Int) :
    AfterPrecisionStage c e (precisionStage c e).1 (precisionStage c e).2 :=
  (afterPrecisionStage_iff ..).mpr rfl

theorem lt_of_afterPrecisionStage {c c1 : Nat} {e e1 : Int} (h : AfterPrecisionStage c e c1 e1) : c1 < 10 ^ 34 := by
  have hlt := precisionStage_lt c e
  rwa [(afterPrecisionStage_iff ..).mp h] at hlt

/-- A coefficient of at most 34 digits is left as it is. -/
theorem eq_of_afterPrecisionStage_of_lt {c c1 : Nat} {e e1 : Int} (h : AfterPrecisionStage c e c1 e1) (hc : c < 10 ^ 34) :
    c1 = c ∧ e1 = e :=
  h.1 ((digitCount_le_iff c (by norm_num)).mpr hc)

theorem rhe_carry : rhe (10 ^ 34) 1 = 10 ^ 33 := rhe_exact (by norm_num)

/-- A first pass that gives 35 digits has carried to `10^34`, and the extra pass is exact (R143). -/
theorem precisionStage_extra_pass {c c1 : Nat} {e e1 : Int} (h : AfterPrecisionStage c e c1 e1) (hdigits : 34 < digitCount c)
    (hcarry : 34 < digitCount (rhe c (digitCount c - 34))) :
    rhe c (digitCount c - 34) = 10 ^ 34 ∧ c1 = 10 ^ 33 ∧ e1 = e + (digitCount c - 34 : Nat) + 1 := by
  have hpow : rhe c (digitCount c - 34) = 10 ^ 34 :=
    le_antisymm (rhe_excess_le hdigits) ((lt_digitCount_iff _ (by norm_num)).mp hcarry)
  obtain ⟨-, hpass⟩ := h
  obtain ⟨-, hextra⟩ := hpass hdigits
  obtain ⟨hc1, he1⟩ := hextra hcarry
  exact ⟨hpow, by rw [hc1, hpow, rhe_carry], he1⟩

/-- The three ways through the precision stage: no pass, one pass, one pass that carries and the exact extra pass (R143). -/
theorem precisionStage_passes {c c1 : Nat} {e e1 : Int} (h : AfterPrecisionStage c e c1 e1) :
    (c1 = c ∧ e1 = e)
    ∨ (c1 = rhe c (digitCount c - 34) ∧ e1 = e + (digitCount c - 34 : Nat))
    ∨ (rhe c (digitCount c - 34) = 10 ^ 34 ∧ c1 = 10 ^ 33 ∧ e1 = e + (digitCount c - 34 : Nat) + 1) := by
  obtain hle | hdigits := le_or_gt (digitCount c) 34
  · obtain ⟨hnone, -⟩ := h
    exact .inl (hnone hle)
  · obtain hle | hcarry := le_or_gt (digitCount (rhe c (digitCount c - 34))) 34
    · obtain ⟨-, hpass⟩ := h
      obtain ⟨hone, -⟩ := hpass hdigits
      exact .inr (.inl (hone hle))
    · exact .inr (.inr (precisionStage_extra_pass h hdigits hcarry))

/-- Settles O43: what the first pass can give at most is the one value that needs the extra pass. -/
theorem precisionStageNeedsNoThirdPass : Obligations.PrecisionStageNeedsNoThirdPass := by
  intro c e c1 e1 h
  have hlt := lt_of_afterPrecisionStage h
  refine ⟨(digitCount_le_iff c1 (by norm_num)).mpr hlt, Nat.le_sub_one_of_lt hlt,
    fun hdigits => ⟨rhe_excess_le hdigits, precisionStage_extra_pass h hdigits⟩, fun hc => ?_⟩
  have hcount : digitCount c ≤ 78 := (digitCount_le_iff c (by norm_num)).mpr (hc.trans (by norm_num))
  omega

/-- The digits that have gone are `k`, the extra pass included: it removes a zero, so that it moves the value no further. -/
theorem withinHalfUnit_precisionStage {c c1 k : Nat} {e e1 : Int} (h : AfterPrecisionStage c e c1 e1) (hk : e1 = e + k) :
    WithinHalfUnit c c1 k := by
  obtain ⟨rfl, he1⟩ | ⟨rfl, he1⟩ | ⟨hpow, rfl, he1⟩ := precisionStage_passes h
  · obtain rfl : k = 0 := by omega
    simpa using withinHalfUnit_rhe c1 0
  · obtain rfl : k = digitCount c - 34 := by omega
    exact withinHalfUnit_rhe c _
  · obtain rfl : k = digitCount c - 34 + 1 := by omega
    have hfirst := withinHalfUnit_rhe c (digitCount c - 34)
    rw [hpow, pow_succ'] at hfirst
    exact hfirst.of_ten_mul

/-! ### What `ROUND` leaves (O44, O46) -/

/-- What the stages after the first leave of `(c1, e1)` in slot `d` and in the Rounder's flags (R144, R145). -/
inductive RangeResult (c1 : Nat) (e1 : Int) (d : SlotIx) (t : State) : Prop
  | overflow (range : 6111 < e1) (tag : (t.slot d).t = .infinity) (expo : t.expo d = 0) (coeff : t.coeff d = 0)
      (of : t.flags.of = true) (uf : t.flags.uf = false) (tn : t.flags.tn = false)
  | deficit (range : e1 < -6176) (tag : (t.slot d).t = .finite) (expo : t.expo d = -6176)
      (coeff : t.coeff d = rhe c1 (-6176 - e1).toNat)
      (of : t.flags.of = false) (uf : t.flags.uf = true ↔ t.coeff d = 0) (tn : t.flags.tn = true)
  | inRange (low : -6176 ≤ e1) (high : e1 ≤ 6111) (tag : (t.slot d).t = .finite) (expo : t.expo d = e1) (coeff : t.coeff d = c1)
      (of : t.flags.of = false) (uf : t.flags.uf = false) (tn : t.flags.tn = false)

theorem toNat_ofNat_of_lt_pow {c : Nat} (h : c < 10 ^ 34) : (BitVec.ofNat 256 c).toNat = c :=
  Nat.mod_eq_of_lt (h.trans (by norm_num))

theorem rangeResult_of_rangeStage {neg : Bool} {c1 : Nat} {e1 : Int} {d : SlotIx} {t : State} {f : Flags} (hc : c1 < 10 ^ 34)
    (hslot : t.slot d = (rangeStage neg c1 e1).slot)
    (hflags : t.flags = flagsAfterRound f (rangeStage neg c1 e1).of (rangeStage neg c1 e1).uf (rangeStage neg c1 e1).tn) :
    RangeResult c1 e1 d t := by
  rcases lt_or_ge 6111 e1 with hover | hhigh
  · simp only [rangeStage_of_overflow _ _ hover, flagsAfterRound] at hslot hflags
    exact .overflow hover (by simp [hslot]) (by simp [State.expo, hslot]) (by simp [State.coeff, hslot])
      (by rw [hflags]) (by rw [hflags]) (by rw [hflags])
  · rcases lt_or_ge e1 (-6176) with hdeficit | hlow
    · have hshift := rhe_le_of_pos hc (k := (-6176 - e1).toNat) (by omega)
      have hcoeff := toNat_ofNat_of_lt_pow (c := rhe c1 (-6176 - e1).toNat) (by omega)
      simp only [rangeStage_of_deficit _ hc hdeficit, flagsAfterRound] at hslot hflags
      have hC : t.coeff d = rhe c1 (-6176 - e1).toNat := by rw [State.coeff, hslot, hcoeff]
      exact .deficit hdeficit (by rw [hslot]) (by rw [State.expo, hslot]; rfl) hC
        (by rw [hflags]) (by rw [hflags, hC, decide_eq_true_iff]) (by rw [hflags])
    · simp only [rangeStage_of_inRange _ _ hlow hhigh, flagsAfterRound] at hslot hflags
      have hexpo : (BitVec.ofInt 32 e1).toInt = e1 := by
        rw [BitVec.toInt_ofInt, Int.bmod_eq_of_le] <;> omega
      exact .inRange hlow hhigh (by rw [hslot]) (by rw [State.expo, hslot, hexpo])
        (by rw [State.coeff, hslot, toNat_ofNat_of_lt_pow hc]) (by rw [hflags]) (by rw [hflags]) (by rw [hflags])

theorem rangeStage_sign (neg : Bool) (c : Nat) (e : Int) : (rangeStage neg c e).slot.s = neg := by
  unfold rangeStage
  split_ifs <;> rfl

/-- `ROUND` is total (R142), and what it leaves is decided by what stage 1 leaves. -/
theorem exec_round_next (d : SlotIx) {a : SlotIx} {s : State} {c1 : Nat} {e1 : Int}
    (hp : AfterPrecisionStage (s.coeff a) (s.expo a) c1 e1) :
    ∃ t, exec (.round d a) s = .next t ∧ Completed s t 0 ∧ OtherSlotsKept s t d ∧ (t.slot d).s = (s.slot a).s
      ∧ (t.flags.cy = s.flags.cy ∧ t.flags.eq = s.flags.eq ∧ t.flags.lt = s.flags.lt) ∧ RangeResult c1 e1 d t := by
  have htriple : roundTriple (s.slot a).s (s.coeff a) (s.expo a) = rangeStage (s.slot a).s c1 e1 := by
    rw [roundTriple, (afterPrecisionStage_iff ..).mp hp]
  obtain ⟨t, ht, hcompleted, hslot, hflags, -⟩ := respond_spec (s := s)
    (u := (slotWrites (.round d a) s).setFlags (flagsAfter (.round d a) s)) 0 rfl rfl ⟨rfl, rfl, rfl, rfl⟩
  have hd : t.slot d = (rangeStage (s.slot a).s c1 e1).slot := by simp [hslot, slotWrites, htriple]
  have hf : t.flags = flagsAfter (.round d a) s := hflags
  simp only [flagsAfter, htriple] at hf
  refine ⟨t, ht, hcompleted, fun j hj => ?_, by rw [hd, rangeStage_sign], ?_, ?_⟩
  · simp [hslot, slotWrites, hj]
  · rw [hf]
    exact ⟨rfl, rfl, rfl⟩
  · exact rangeResult_of_rangeStage (lt_of_afterPrecisionStage hp) hd hf

/-- `exec_round_next` read off a `ROUND` that has run. -/
theorem rangeResult_of_round {d a : SlotIx} {s t : State} (h : exec (.round d a) s = .next t) {c1 : Nat} {e1 : Int}
    (hp : AfterPrecisionStage (s.coeff a) (s.expo a) c1 e1) : (t.slot d).s = (s.slot a).s ∧ RangeResult c1 e1 d t := by
  obtain ⟨u, hu, -, -, hsign, -, hrange⟩ := exec_round_next d hp
  obtain rfl : u = t := by simpa [hu] using h
  exact ⟨hsign, hrange⟩

/-- Settles O44: the three ranges of the exponent exclude each other, so that each clause speaks of one way the stages end. -/
theorem roundWritesTheRoundedTriple : Obligations.RoundWritesTheRoundedTriple := by
  refine fun d a => ⟨by simp [encode, formatR_toNat], fun s c1 e1 hp => ?_⟩
  obtain ⟨t, ht, hcompleted, hothers, hsign, ⟨hcy, heq, hlt⟩, hrange⟩ := exec_round_next d hp
  refine ⟨t, ht, hcompleted, hothers, hsign, hcy, heq, hlt, ?_⟩
  cases hrange with
  | overflow range tag expo coeff of uf tn =>
    exact ⟨fun _ => ⟨tag, expo, coeff, of, uf, tn⟩, fun h => by omega, fun _ h => by omega⟩
  | deficit range tag expo coeff of uf tn =>
    exact ⟨fun h => by omega, fun _ => ⟨tag, expo, coeff, of, uf, tn⟩, fun h => by omega⟩
  | inRange low high tag expo coeff of uf tn =>
    exact ⟨fun h => by omega, fun h => by omega, fun _ _ => ⟨tag, expo, coeff, of, uf, tn⟩⟩

theorem RangeResult.tn_iff {c1 : Nat} {e1 : Int} {d : SlotIx} {t : State} (h : RangeResult c1 e1 d t) :
    t.flags.tn = true ↔ e1 < -6176 := by
  cases h with
  | deficit range _ _ _ _ _ tn => exact iff_of_true tn range
  | overflow range _ _ _ _ _ tn => exact iff_of_false (by simp [tn]) (by omega)
  | inRange low _ _ _ _ _ _ tn => exact iff_of_false (by simp [tn]) (by omega)

theorem RangeResult.uf_iff {c1 : Nat} {e1 : Int} {d : SlotIx} {t : State} (h : RangeResult c1 e1 d t) :
    t.flags.uf = true ↔ t.flags.tn = true ∧ t.coeff d = 0 := by
  cases h with
  | deficit _ _ _ _ _ uf tn => rw [uf, and_iff_right tn]
  | overflow _ _ _ _ _ uf tn => simp [uf, tn]
  | inRange _ _ _ _ _ _ uf tn => simp [uf, tn]

theorem RangeResult.of_iff {c1 : Nat} {e1 : Int} {d : SlotIx} {t : State} (h : RangeResult c1 e1 d t) :
    t.flags.of = true ↔ (t.slot d).t = .infinity := by
  cases h with
  | overflow _ tag _ _ of => exact iff_of_true of tag
  | deficit _ tag _ _ of => simp [of, tag]
  | inRange _ _ tag _ _ of => simp [of, tag]

theorem RangeResult.finished_or_infinity {c1 : Nat} {e1 : Int} {d : SlotIx} {t : State} (h : RangeResult c1 e1 d t)
    (hc : c1 < 10 ^ 34) :
    ((t.slot d).t = .finite ∧ t.coeff d ≤ 10 ^ 34 - 1 ∧ -6176 ≤ t.expo d ∧ t.expo d ≤ 6111)
      ∨ ((t.slot d).t = .infinity ∧ t.coeff d = 0 ∧ t.expo d = 0) := by
  cases h with
  | overflow _ tag expo coeff => exact .inr ⟨tag, coeff, expo⟩
  | deficit range tag expo coeff =>
    have hshift := rhe_le_of_pos hc (k := (-6176 - e1).toNat) (by omega)
    exact .inl ⟨tag, by omega, by omega, by omega⟩
  | inRange low high tag expo coeff => exact .inl ⟨tag, by omega, by omega, by omega⟩

/-- Settles O46: each part is read off the way the stages ended. -/
theorem roundOutputIsFinishedOrInfinity : Obligations.RoundOutputIsFinishedOrInfinity := by
  intro d a s t h
  have hp := afterPrecisionStage_self (s.coeff a) (s.expo a)
  obtain ⟨hsign, hrange⟩ := rangeResult_of_round h hp
  refine ⟨hsign, hrange.finished_or_infinity (lt_of_afterPrecisionStage hp), hrange.of_iff, fun c1 e1 hp' => ?_, hrange.uf_iff⟩
  obtain ⟨-, hrange'⟩ := rangeResult_of_round h hp'
  exact hrange'.tn_iff

/-! ### Finished values and nearness (O47, O48) -/

theorem Slot.eq_of_fields {v w : Slot} (hc : v.c.toNat = w.c.toNat) (he : v.e.toInt = w.e.toInt) (hs : v.s = w.s)
    (ht : v.t = w.t) : v = w := by
  cases v
  cases w
  simp only [Slot.mk.injEq]
  exact ⟨BitVec.eq_of_toNat_eq hc, BitVec.eq_of_toInt_eq he, hs, ht⟩

/-- On a finished value no stage of the rounder acts (R148); the source's tag is not read (R147). -/
theorem exec_round_of_finished (d : SlotIx) {a : SlotIx} {s : State} (hc : s.coeff a ≤ 10 ^ 34 - 1) (hlow : -6176 ≤ s.expo a)
    (hhigh : s.expo a ≤ 6111) :
    ∃ t, exec (.round d a) s = .next t ∧ t.slot d = { s.slot a with t := .finite }
      ∧ t.flags.of = false ∧ t.flags.uf = false ∧ t.flags.tn = false := by
  have hp : AfterPrecisionStage (s.coeff a) (s.expo a) (s.coeff a) (s.expo a) :=
    (afterPrecisionStage_iff ..).mpr (precisionStage_of_lt _ (by omega))
  obtain ⟨t, ht, -, -, hsign, -, hrange⟩ := exec_round_next d hp
  cases hrange with
  | inRange _ _ tag expo coeff of uf tn => exact ⟨t, ht, Slot.eq_of_fields coeff expo hsign tag, of, uf, tn⟩
  | overflow range => omega
  | deficit range => omega

/-- Settles O47: a Finite result is itself a finished value (R146). -/
theorem roundIsIdentityOnFinishedValues : Obligations.RoundIsIdentityOnFinishedValues := by
  refine ⟨fun d a s => exec_round_of_finished d, fun d a x s t h hfinite => ?_⟩
  obtain ⟨-, ⟨-, hc, hlow, hhigh⟩ | ⟨hinf, -⟩, -⟩ := roundOutputIsFinishedOrInfinity d a s t h
  · obtain ⟨u, hu, hslot, hflags⟩ := exec_round_of_finished x hc hlow hhigh
    exact ⟨u, hu, by rw [hslot, ← hfinite], hflags⟩
  · simp [hfinite] at hinf

/-- Settles O48: one stage moves the value by at most half a unit. -/
theorem roundIsNearestInOneStage : Obligations.RoundIsNearestInOneStage := by
  intro d a s t h hfinite
  have hp := afterPrecisionStage_self (s.coeff a) (s.expo a)
  obtain ⟨-, hrange⟩ := rangeResult_of_round h hp
  refine ⟨fun htn k hk => WithinHalfUnit.nearest ?_, fun hc k hk => WithinHalfUnit.nearest ?_⟩
  · cases hrange with
    | inRange _ _ _ expo coeff => exact coeff ▸ withinHalfUnit_precisionStage hp (expo ▸ hk)
    | overflow _ tag => simp [hfinite] at tag
    | deficit _ _ _ _ _ _ tn => simp [htn] at tn
  · obtain ⟨hc1, he1⟩ := eq_of_afterPrecisionStage_of_lt hp (by omega)
    cases hrange with
    | inRange _ _ _ expo coeff => exact coeff ▸ withinHalfUnit_precisionStage hp (expo ▸ hk)
    | overflow _ tag => simp [hfinite] at tag
    | deficit range _ expo coeff =>
      obtain hk : (-6176 - (precisionStage (s.coeff a) (s.expo a)).2).toNat = k := by omega
      rw [coeff, hc1, hk]
      exact withinHalfUnit_rhe _ k

end Sys2Proof.Machine
end

section
/-!
PROOFS. The transfer commands (42_transfer.md, R170 to R177): each is one that raises nothing, so it always completes; what it then writes
and shows is read off `slotWrites` and `responseOf`.
-/

namespace Sys2Proof.Machine

open Sys2Proof

/-! ### A command that raises nothing completes -/

theorem exec_completedBy {i : Instr} {s : State} (h : raisedBy i s = none) : ∃ t, exec i s = .next t ∧ CompletedBy i s t := by
  obtain ⟨t, ht⟩ := exec_answers_next i s
  obtain hc | ⟨k, hk, -⟩ := exec_next_cases ht
  · exact ⟨t, ht, hc⟩
  · rw [h] at hk
    cases hk

theorem CompletedBy.slot_eq {i : Instr} {s t : State} (h : CompletedBy i s t) (j : SlotIx) : t.slot j = (slotWrites i s).slot j :=
  State.slot_congr h.slots j

/-! ### The commands that write a slot (O24 to O27, O30) -/

/-- Settles O24: the write is of the zero-extended immediate, whose value is the immediate's. -/
theorem liLoadsTheImmediate : Obligations.LiLoadsTheImmediate := by
  refine fun d imm => ⟨by simp [encode, formatI_toNat], fun s => ?_⟩
  obtain ⟨t, ht, h⟩ := exec_completedBy (i := .li d imm) (s := s) rfl
  exact ⟨t, ht, h.completed, zextImm_toNat imm ▸ wroteC_setC h.slot_eq, h.flags⟩

/-- Settles O25: the write is of the sign-extended immediate, whose value is the immediate's. -/
theorem lxiLoadsSignAndExponent : Obligations.LxiLoadsSignAndExponent := by
  refine fun d neg e => ⟨by simp [encode, formatX_toNat], fun s => ?_⟩
  obtain ⟨t, ht, h⟩ := exec_completedBy (i := .lxi d neg e) (s := s) rfl
  exact ⟨t, ht, h.completed, sextImm_toInt e ▸ wroteAux_setAux h.slot_eq, h.flags⟩

/-- Settles O26: the write is of `wdata` itself. -/
theorem ldcLoadsTheWriteData : Obligations.LdcLoadsTheWriteData := by
  refine fun d => ⟨by simp [encode, formatR_toNat], fun s => ?_⟩
  obtain ⟨t, ht, h⟩ := exec_completedBy (i := .ldc d) (s := s) rfl
  exact ⟨t, ht, h.completed, wroteC_setC h.slot_eq, h.flags⟩

/-- Settles O27: the tag written is the one read from bits 34:33, and a code read as a tag is that tag's code. -/
theorem ldxLoadsTheAuxiliaryWord : Obligations.LdxLoadsTheAuxiliaryWord := by
  refine fun d => ⟨by simp [encode, formatR_toNat], fun s => ?_⟩
  obtain ⟨t, ht, h⟩ := exec_completedBy (i := .ldx d) (s := s) rfl
  exact ⟨t, auxTag s.wdata, ht, h.completed, wroteAux_setAux h.slot_eq, tagCode_tagOfCode _, h.flags⟩

/-- Settles O30: every slot but the destination is kept, and where source and destination are one the write is of its old value. -/
theorem movCopiesTheSlot : Obligations.MovCopiesTheSlot := by
  refine fun d v => ⟨by simp [encode, formatR_toNat], fun s => ?_⟩
  obtain ⟨t, ht, h⟩ := exec_completedBy (i := .mov d v) (s := s) rfl
  have hd : t.slot d = s.slot v := by rw [h.slot_eq, slotWrites, State.slot_setSlot, if_pos rfl]
  have hothers : OtherSlotsKept s t d := fun j hj => by rw [h.slot_eq, slotWrites, State.slot_setSlot, if_neg hj]
  have hv : t.slot v = s.slot v := by
    by_cases hvd : v = d
    · rw [hvd, hd, hvd]
    · exact hothers v hvd
  exact ⟨t, ht, h.completed, hd, hothers, hv, h.flags⟩

/-! ### The commands that only respond (O28, O29, O31) -/

/-- Settles O28: the response is the coefficient, and no write is made. -/
theorem stcReadsTheCoefficient : Obligations.StcReadsTheCoefficient := by
  refine fun v => ⟨by simp [encode, formatR_toNat], fun s => ?_⟩
  obtain ⟨t, ht, h⟩ := exec_completedBy (i := .stc v) (s := s) rfl
  exact ⟨t, ht, h.completed, h.slots, h.flags⟩

theorem auxWord_toNat (v : Slot) : (auxWord v).toNat = (tagCode v.t).toNat * 2 ^ 33 + v.s.toNat * 2 ^ 32 + v.e.toNat := by
  change (tagCode v.t ++ BitVec.ofBool v.s ++ v.e : BitVec (2 + 1 + 32)).toNat = _
  simp only [toNat_append_eq, BitVec.toNat_ofBool]
  omega

/-- Settles O29: zero extension keeps the number the auxiliary word is. -/
theorem stxReadsTheAuxiliaryWord : Obligations.StxReadsTheAuxiliaryWord := by
  refine fun v => ⟨by simp [encode, formatR_toNat], fun s => ?_⟩
  obtain ⟨t, ht, h⟩ := exec_completedBy (i := .stx v) (s := s) rfl
  exact ⟨t, _, ht, h.completed, h.slots, h.flags, (BitVec.toNat_setWidth_of_le (by decide)).trans (auxWord_toNat _)⟩

theorem flagBits_toNat (f : Flags) :
    (flagBits f).toNat = f.cy.toNat + 2 * f.eq.toNat + 4 * f.lt.toNat + 8 * f.of.toNat + 16 * f.uf.toNat + 32 * f.tn.toNat := by
  change (BitVec.ofBool f.tn ++ BitVec.ofBool f.uf ++ BitVec.ofBool f.of ++ BitVec.ofBool f.lt ++ BitVec.ofBool f.eq
    ++ BitVec.ofBool f.cy : BitVec (1 + 1 + 1 + 1 + 1 + 1)).toNat = _
  simp only [toNat_append_eq, BitVec.toNat_ofBool]
  omega

/-- Settles O31: zero extension keeps the number the six flags are. -/
theorem rdfReadsTheFlags : Obligations.RdfReadsTheFlags := by
  refine ⟨rfl, fun s => ?_⟩
  obtain ⟨t, ht, h⟩ := exec_completedBy (i := .rdf) (s := s) rfl
  exact ⟨t, _, ht, h.completed, h.slots, h.flags, (BitVec.toNat_setWidth_of_le (by decide)).trans (flagBits_toNat _)⟩

end Sys2Proof.Machine
end

section
/-!
PROOFS. Exceptions (60_exceptions.md): which command faults with which cause (R200, R206), what a step can do to `FSR` and the entry of
a fault (R203, R207), and the faulted state (R205).
-/

namespace Sys2Proof.Machine

open Sys2Proof

/-! ### The table of faults (O52) -/

theorem raisedBy_of_wellFormed {i : Instr} (h : i.wellFormed = true) (s : State) : raisedBy i s = faultOf i s := if_pos h

theorem exec_faults {i : Instr} {s : State} {k : Cause} (hwf : i.wellFormed = true) (hk : faultOf i s = some k) :
    ∃ t, exec i s = .next t ∧ FaultEntered s t k := by
  rw [exec_eq, raisedBy_of_wellFormed hwf, hk]
  exact raise_faultEntered k s

theorem exec_completes {i : Instr} {s : State} (hwf : i.wellFormed = true) (hk : faultOf i s = none) :
    ∃ t, exec i s = .next t ∧ Completed s t (responseOf i s) := by
  obtain ⟨t, ht, hc⟩ := exec_completedBy ((raisedBy_of_wellFormed hwf s).trans hk)
  exact ⟨t, ht, hc.completed⟩

theorem completeCommand_illegal_faultEntered {s : State} (h : ∀ i, decode s.cmd ≠ .ok i) :
    ∃ t, completeCommand s = .next t ∧ FaultEntered s t .illegalCommand := by
  rw [completeCommand_of_illegal h]
  exact raise_faultEntered _ s

/-- Settles O52: a command raises what the table says, and what raises nothing completes. -/
theorem commandsFaultExactlyAsTabled : Obligations.CommandsFaultExactlyAsTabled := by
  refine ⟨fun i s k => exec_faults, fun i s hwf hk => ?_, fun s => completeCommand_illegal_faultEntered, rfl, rfl, rfl, rfl⟩
  obtain ⟨t, ht, hc⟩ := exec_completes hwf hk
  exact ⟨t, _, ht, hc⟩

/-- Settles O11: the accepted word is the illegal one. -/
theorem stepTakesIllegalCommandFault : Obligations.StepTakesIllegalCommandFault := by
  intro s c hr hf hp hc hillegal
  rw [step_presented hr hf hp hc]
  obtain ⟨t, ht, hfsr, hslots, hflags, -, hrsp, hpc, hcommands, -⟩ :=
    completeCommand_illegal_faultEntered (s := accept c 0 s) hillegal
  exact ⟨t, ht, hfsr, hslots, hflags, hpc, hrsp, hcommands⟩

/-! ### Keeping clear of `CapacityOverflow` (O41) -/

/-- The largest power of ten in 256 bits is `10^77` (R102). -/
theorem ten_pow_lt_coeff_bound {n : Nat} (h : n ≤ 77) : 10 ^ n < 2 ^ 256 :=
  lt_of_le_of_lt (Nat.pow_le_pow_right (by norm_num) h) (by norm_num)

theorem scale_lt_of_digitCount_add_le {a n : Nat} (h : digitCount a + n ≤ 77) : a * 10 ^ n < 2 ^ 256 :=
  calc a * 10 ^ n < 10 ^ digitCount a * 10 ^ n := Nat.mul_lt_mul_of_pos_right (lt_pow_digitCount a) (by positivity)
    _ = 10 ^ (digitCount a + n) := (pow_add ..).symm
    _ < 2 ^ 256 := ten_pow_lt_coeff_bound h

/-- A factor is below the power of ten of its digit count. -/
theorem mul_lt_of_digitCount_add_le {a b : Nat} (h : digitCount a + digitCount b ≤ 77) : a * b < 2 ^ 256 :=
  calc a * b ≤ a * 10 ^ digitCount b := Nat.mul_le_mul_left a (lt_pow_digitCount b).le
    _ < 2 ^ 256 := scale_lt_of_digitCount_add_le h

/-- A coefficient within the source's contract has at most 34 digits (R101). -/
theorem digitCount_le_of_le_cmax {a : Nat} (h : a ≤ 10 ^ 34 - 1) : digitCount a ≤ 34 :=
  (digitCount_le_iff a (by norm_num)).mpr (by omega)

/-- Settles O41: under each bound the exact result is below `2^256`, and the command raises nothing. -/
theorem boundedOperandsNeverOverflow : Obligations.BoundedOperandsNeverOverflow := by
  intro s d a b
  refine ⟨fun h => ?_, fun h => ?_, fun n h => ?_⟩
  · have hsum : s.coeff a + s.coeff b < 2 ^ 256 := by omega
    exact exec_completes (i := .add d a b) rfl (if_neg (Nat.not_le.mpr hsum))
  · have hdigits : digitCount (s.coeff a) + digitCount (s.coeff b) ≤ 77 := by
      obtain ⟨ha, hb⟩ | hle := h
      · have hda := digitCount_le_of_le_cmax ha
        have hdb := digitCount_le_of_le_cmax hb
        omega
      · exact hle
    exact exec_completes (i := .mul d a b) rfl (if_neg (Nat.not_le.mpr (mul_lt_of_digitCount_add_le hdigits)))
  · exact exec_completes (i := .scale d a n) rfl (if_neg (Nat.not_le.mpr (scale_lt_of_digitCount_add_le h)))

/-! ### The recorded cause and the recorded word -/

/-- What a legal word raises is a cause that the word can raise (R200). -/
theorem faultAttributed_of_faultOf {w : CmdWord} {i : Instr} {s : State} {k : Cause} (hd : decode w = .ok i)
    (hk : faultOf i s = some k) : FaultAttributed ⟨true, some k, w⟩ := by
  cases i with
  | add | mul | scale | sub | divmod =>
    obtain ⟨-, ⟨⟩⟩ := Option.ite_none_right_eq_some.mp hk
    simp [FaultAttributed, hd]
  | li | lxi | ldc | ldx | stc | stx | mov | rdf | cmp | digits | round => cases hk

/-- A command that ends has kept `FSR`, or has entered a fault that its word can raise. -/
theorem completeCommand_fsr_cases {s t : State} (h : completeCommand s = .next t) :
    t.fsr = s.fsr ∨ ∃ k, FaultEntered s t k ∧ FaultAttributed ⟨true, some k, s.cmd⟩ := by
  by_cases hd : ∃ i, decode s.cmd = .ok i
  · obtain ⟨i, hi⟩ := hd
    obtain ⟨hwf, -⟩ := decode_sound hi
    rw [completeCommand_of_ok hi] at h
    obtain hc | ⟨k, hk, hf⟩ := exec_next_cases h
    · obtain ⟨hfsr, -⟩ := hc.completed
      exact .inl hfsr
    · rw [raisedBy_of_wellFormed hwf] at hk
      exact .inr ⟨k, hf, faultAttributed_of_faultOf hi hk⟩
  · have hillegal := not_exists.mp hd
    obtain ⟨u, hu, hf⟩ := completeCommand_illegal_faultEntered hillegal
    obtain rfl : u = t := by simpa [hu] using h
    exact .inr ⟨_, hf, hillegal⟩

/-! ### What a step can do to `FSR` -/

/-- A step of `s` completes the command that `u` has sampled: the one in flight, or the one presented, accepted first (R7, R52). -/
inductive StepCompletes (s : State) : State → Prop
  | inFlight {n : Nat} (hp : s.phase = .inFlight n) : StepCompletes s s
  | presented {c : Command} (hp : s.phase = .idle) (hc : s.commands[s.pc]? = some c) : StepCompletes s (accept c 0 s)

/-- Acceptance has changed neither a register nor the host's index. -/
theorem StepCompletes.kept {s u : State} (h : StepCompletes s u) :
    u.slots = s.slots ∧ u.flags = s.flags ∧ u.fsr = s.fsr ∧ u.pc = s.pc := by
  cases h <;> exact ⟨rfl, rfl, rfl, rfl⟩

theorem StepCompletes.cmd_of_inFlight {s u : State} (h : StepCompletes s u) {n : Nat} (hp : s.phase = .inFlight n) :
    u.cmd = s.cmd := by
  cases h with
  | inFlight => rfl
  | presented hidle => simp [hidle] at hp

theorem StepCompletes.cmd_of_idle {s u : State} (h : StepCompletes s u) (hp : s.phase = .idle) :
    ∃ c, s.commands[s.pc]? = some c ∧ u.cmd = c.word := by
  cases h with
  | inFlight hflight => simp [hp] at hflight
  | presented _ hc => exact ⟨_, hc, rfl⟩

/-- A step of `s` to `t` has entered a fault that the word of the command it takes can raise. -/
def StepFaults (s t : State) : Prop :=
  ∃ u k, StepCompletes s u ∧ FaultEntered u t k ∧ FaultAttributed ⟨true, some k, u.cmd⟩

theorem StepCompletes.fsr_cases {s u t : State} (hu : StepCompletes s u) (h : completeCommand u = .next t) :
    t.fsr = s.fsr ∨ StepFaults s t := by
  obtain ⟨-, -, hkept, -⟩ := hu.kept
  obtain hfsr | ⟨k, hf, ha⟩ := completeCommand_fsr_cases h
  · exact .inl (hfsr.trans hkept)
  · exact .inr ⟨u, k, hu, hf, ha⟩

/-- A step clears `FSR` by reset, keeps it, or enters a fault. -/
theorem step_fsr_cases {s t : State} (h : step s = .next t) :
    t.fsr = Fsr.clear ∨ t.fsr = s.fsr ∨ StepFaults s t := by
  obtain ⟨v, -, rfl⟩ | ⟨-, -, -, rfl⟩ | ⟨-, -, ⟨n, hp⟩, hc⟩ | ⟨c, -, -, hp, hpresented, hc⟩ | ⟨-, -, -, -, rfl⟩ := step_cases h
  · exact .inl (enterReset_fsr s v)
  · exact .inr (.inl (leaveReset_fsr s))
  · exact .inr ((StepCompletes.inFlight hp).fsr_cases hc)
  · exact .inr ((StepCompletes.presented hp hpresented).fsr_cases hc)
  · exact .inr (.inl (hold_fsr s))

/-- Settles O20: a cleared `FSR` records no cause, a kept one the same as before, and an entered fault one of its own word. -/
theorem everyStepKeepsFaultsAttributed : Obligations.EveryStepKeepsFaultsAttributed := by
  intro s t hs h
  obtain hclear | hkept | ⟨u, k, -, ⟨hfsr, -⟩, hrecordable⟩ := step_fsr_cases h
  · rw [hclear]
    trivial
  · rwa [hkept]
  · rwa [hfsr]

/-! ### Fault entry (O13) -/

/-- A unit becomes faulted by the command it takes and in no other way. -/
theorem stepFaults_of_faulted {s t : State} (h : step s = .next t) (hs : s.fsr.f = false) (ht : t.fsr.f = true) :
    StepFaults s t := by
  obtain hclear | hkept | hfaults := step_fsr_cases h
  · rw [hclear] at ht
    cases ht
  · rw [hkept, hs] at ht
    cases ht
  · exact hfaults

/-- The codes of R202 are 1 to 4. -/
theorem causeCode_bounds (k : Cause) : 1 ≤ (causeCode k).toNat ∧ (causeCode k).toNat ≤ 4 := by
  cases k <;> decide

theorem portOut_of_fsr {t : State} {k : Cause} {w : CmdWord} (h : t.fsr = ⟨true, some k, w⟩) :
    (portOut t).fault = true ∧ (portOut t).cause = causeCode k ∧ (portOut t).fcmd = w := by
  simp [portOut, h, causeBits]

/-- Settles O13: the fault is that of the command the step takes, whose acceptance has changed no register. -/
theorem faultEntryWritesFsrOnly : Obligations.FaultEntryWritesFsrOnly := by
  intro s t _ hs h ht
  obtain ⟨u, k, hu, ⟨hfsr, hslots, hflags, -, hrsp, hpc, -, -, hcmd, -⟩, -⟩ := stepFaults_of_faulted h hs ht
  obtain ⟨hslots', hflags', -, hpc'⟩ := hu.kept
  rw [← hcmd] at hfsr
  obtain ⟨hfault, hcause, hfcmd⟩ := portOut_of_fsr hfsr
  obtain ⟨hlow, hhigh⟩ := causeCode_bounds k
  rw [← hcause] at hlow hhigh
  refine ⟨⟨k, hfsr⟩, hslots.trans hslots', hflags.trans hflags', hpc.trans hpc', hrsp, hfault, hlow, hhigh, hfcmd,
    fun n hp => hcmd.trans (hu.cmd_of_inFlight hp), fun hp => ?_⟩
  obtain ⟨c, hc, hword⟩ := hu.cmd_of_idle hp
  exact ⟨c, hc, hcmd.trans hword⟩

/-! ### The faulted state (O14) -/

theorem cmdReady_of_faulted {s : State} (hf : s.fsr.f = true) : s.cmdReady = false := by
  simp [State.cmdReady, hf]

theorem hold_of_no_response {s : State} (h : s.rsp = none) : hold s = s := by
  rw [hold, ← h]

/-- With `rst` low a faulted unit accepts nothing, so that it holds; it has no response to end either (R203, R205). -/
theorem clockEdge_of_faulted {p : PortIn} (l : Nat) {s : State} (hs : MachineInv s) (hf : s.fsr.f = true) (hr : p.rst = none) :
    clockEdge p l s = .next s := by
  obtain ⟨-, -, hfaulted, -⟩ := hs
  obtain ⟨hidle, hrsp⟩ := hfaulted hf
  rw [clockEdge_idle l hr hidle (by simp [cmdReady_of_faulted hf]), hold_of_no_response hrsp]

/-- So every clock edge leaves the very same state. -/
theorem runEdges_of_faulted {es : List (PortIn × Nat)} {s : State} (hs : MachineInv s) (hf : s.fsr.f = true)
    (hes : ∀ x ∈ es, x.1.rst = none) : runEdges es s = .next s := by
  induction es with
  | nil => rfl
  | cons x xs ih =>
    obtain ⟨hx, hxs⟩ := List.forall_mem_cons.mp hes
    exact (runEdges_cons_of_next (clockEdge_of_faulted x.2 hs hf hx) xs).trans (ih hxs)

/-- Settles O14: edges with `rst` low leave the state as it is, and one with `rst` high enters reset. -/
theorem faultedStateIsStuckUntilReset : Obligations.FaultedStateIsStuckUntilReset := by
  refine fun s hs hf => ⟨fun es hes => ?_, fun hr => step_faulted hr hf, fun p l v hv => ?_⟩
  · exact ⟨s, runEdges_of_faulted hs hf hes, rfl, rfl, rfl, cmdReady_of_faulted hf, rfl, rfl⟩
  · exact ⟨_, clockEdge_reset l s hv, rfl, rfl⟩

end Sys2Proof.Machine
end

section
/-!
PROOFS. Reset (70_reset_and_hazards.md): what entering and leaving the reset state give (R230, R31), and a command in flight at a
reset (R232).
-/

namespace Sys2Proof.Machine

open Sys2Proof

/-! ### Entering the reset state -/

/-- The pins in the reset state: not ready, no response, `rdata = 0` (R230). -/
theorem enterReset_pins (v : Vector Slot 8) (s : State) :
    (enterReset v s).phase = .inReset ∧ (portOut (enterReset v s)).cmdReady = false
      ∧ (portOut (enterReset v s)).rspValid = false ∧ (portOut (enterReset v s)).rdata = some 0 :=
  ⟨rfl, rfl, rfl, rfl⟩

/-- Settles O16: the edge enters reset whatever the phase was, so that the command in flight neither completes nor faults. -/
theorem resetAbandonsTheCommandInFlight : Obligations.ResetAbandonsTheCommandInFlight :=
  fun s _ l _ v _ hv => ⟨_, clockEdge_reset l s hv, rfl, enterReset_rsp s v, rfl, rfl, enterReset_slots s v, enterReset_pc s v⟩

/-- Settles O55, from the field lemmas of the two reset actions. -/
theorem resetStepSpendsThePin : Obligations.ResetStepSpendsThePin := by
  refine ⟨fun s v hv => ?_, fun s hr hf hp => ?_⟩
  · exact ⟨_, step_reset hv, enterReset_rst s v, enterReset_slots s v, enterReset_flags s v, enterReset_fsr s v,
      enterReset_commands s v, enterReset_pc s v⟩
  · exact ⟨_, step_inReset hr hf hp, leaveReset_phase s, leaveReset_rsp s, leaveReset_slots s, leaveReset_flags s,
      leaveReset_fsr s, leaveReset_pc s, leaveReset_commands s, leaveReset_rst s, leaveReset_cmd s, leaveReset_wdata s⟩

/-! ### Leaving the reset state -/

/-- What R31 states of the unit on leaving reset, the slots apart, which it leaves open. -/
def HasResetValues (u : State) : Prop :=
  flagBits u.flags = 0 ∧ fsrBits u.fsr = 0 ∧ u.phase = .idle ∧ u.rsp = none ∧ (portOut u).cmdReady = true

/-- The clear registers are 0 as the bits R29 lays out. -/
theorem registerBits_clear : flagBits Flags.clear = 0 ∧ fsrBits Fsr.clear = 0 := by
  decide

/-- The unit is not faulted, so that it is ready as soon as it is idle. -/
theorem leaveReset_hasResetValues {s : State} (hflags : s.flags = Flags.clear) (hfsr : s.fsr = Fsr.clear) :
    HasResetValues (leaveReset s) := by
  obtain ⟨hflagBits, hfsrBits⟩ := registerBits_clear
  have hready : (leaveReset s).cmdReady = true := (cmdReady_iff _).mpr ⟨rfl, congrArg Fsr.f hfsr⟩
  exact ⟨hflags ▸ hflagBits, hfsr ▸ hfsrBits, rfl, rfl, hready⟩

/-- Under the invariant the registers of the reset state are clear already, so the step that leaves it gives the stated values. -/
theorem step_inReset_hasResetValues {s : State} (hs : MachineInv s) (hp : s.phase = .inReset) (hr : s.rst = none) :
    ∃ u, step s = .next u ∧ HasResetValues u := by
  obtain ⟨-, -, -, -, hreset⟩ := hs
  obtain ⟨-, hflags, hfsr⟩ := hreset hp
  exact ⟨_, step_inReset hr (congrArg Fsr.f hfsr) hp, leaveReset_hasResetValues hflags hfsr⟩

/-- Settles O15, for an edge and for a step: enter reset, then leave it with clear registers; the faulted state stays otherwise. -/
theorem resetLeavesTheStatedValues : Obligations.ResetLeavesTheStatedValues := by
  refine ⟨fun s p l v hv => ?_, fun s v hv => ?_, fun _ => step_inReset_hasResetValues, fun s t p l hs hf hr h => ?_,
    fun s t hf hr => ?_, _, rfl⟩
  · obtain ⟨hphase, hready, hvalid, hdata⟩ := enterReset_pins v s
    exact ⟨_, clockEdge_reset l s hv, hphase, hready, hvalid, hdata, fun q m hq =>
      ⟨_, clockEdge_inReset m hq hphase, rfl, leaveReset_hasResetValues rfl rfl⟩⟩
  · obtain ⟨hphase, hready, hvalid, hdata⟩ := enterReset_pins v s
    exact ⟨_, step_reset hv, hphase, hready, hvalid, hdata,
      _, step_inReset rfl rfl hphase, rfl, leaveReset_hasResetValues rfl rfl⟩
  · obtain rfl : s = t := by simpa [clockEdge_of_faulted l hs hf hr] using h
    exact hf
  · simp [step_faulted hr hf]

end Sys2Proof.Machine
end
